-- ==== Sys2Proof/Word.lean ====
section
/-! DEFINITION. The word and byte types, and the four-word register file (spec/10_state.md R10). -/

namespace Sys2Proof

/-- A state word, a raw output word, a response data word: 64 bits (R5 `W`, R10, R43). -/
abbrev Word := BitVec 64

/-- One byte of the seed (R28). -/
abbrev Byte := BitVec 8

/-- Four ordered 64-bit words: the generator state `s[0..3]` (R10), and the shape of the accumulators `acc[0..3]` (R18). -/
structure Words where
  s0 : Word
  s1 : Word
  s2 : Word
  s3 : Word
  deriving DecidableEq, Repr

/-- All four words zero: the accumulators at the start of JUMP (R81); a legal state of the generator (R13). -/
def Words.zero : Words := ⟨0#64, 0#64, 0#64, 0#64⟩

/-- Word by word exclusive or (R81 accumulation, R64). -/
def Words.xor (a b : Words) : Words :=
  ⟨a.s0 ^^^ b.s0, a.s1 ^^^ b.s1, a.s2 ^^^ b.s2, a.s3 ^^^ b.s3⟩

/-- Word `j` of four (R10). -/
def Words.get (w : Words) (j : Fin 4) : Word :=
  match j with
  | 0 => w.s0
  | 1 => w.s1
  | 2 => w.s2
  | 3 => w.s3

end Sys2Proof
end

