-- ==== Sys2Proof/Config.lean ====
section
/-! DEFINITION. What an implementation fixes (spec/00_scope.md R5) and the FREE VALUES: opaque constants, one for each thing the
spec leaves without a value (spec/93_implementation_defined.md U1, U2, U3, U11). Nothing in Lean can evaluate a free value, so a
claim that holds, holds whatever the hardware shows there. -/

namespace Sys2Proof

/-- The two readings of RX's "divide by" in the closed-closed scalers (R69, R79, U13). -/
inductive ScalerRounding where
  /-- Convert the numerator, convert the divisor, divide, each rounded to nearest even (R69, decision D11). -/
  | stepwise
  /-- The exact quotient, rounded once to nearest even (R79; offered by the spec, not taken). -/
  | exactQuotient
  deriving DecidableEq, Repr

/-- `HAS_STEP_STROBE`, value taken by the spec: the `step_o` output exists (R5, D29). -/
def Config.hasStepStrobe : Bool := true

/-- FREE VALUE. What word number `slot` of the state words (slots 0 to 3) or of the accumulators (slots 4 to 7) holds where the spec
gives it no value: after a reset event (R26, R107, U1) and, for the accumulators, after a JUMP (R18, U11). The first argument is
the step at which it arises. Log entries 2 and 3. -/
opaque Config.unspecifiedWord : Nat → Nat → Word

/-- FREE VALUE. What the iteration index holds where the spec gives it no value (R18, R26, U11). Log entries 2 and 3. -/
opaque Config.unspecifiedIndex : Nat → BitVec 8

/-- FREE VALUE. What `state_o` shows while SEEDED = 0 or BUSY = 1 (R25, U2). Log entry 8. -/
opaque Config.unspecifiedStateO : Nat → BitVec 256

/-- FREE VALUE. What `rsp_err_o` shows while `rsp_valid_o` = 0 (R26, U3). Log entry 8. -/
opaque Config.unspecifiedRspErr : Nat → BitVec 2

/-- FREE VALUE. What `rsp_data_o` shows while `rsp_valid_o` = 0 (R26, U3). Log entry 8. -/
opaque Config.unspecifiedRspData : Nat → Word

/-- The four state words where they hold no value of the spec's. -/
def Config.unspecifiedState (t : Nat) : Words :=
  ⟨Config.unspecifiedWord t 0, Config.unspecifiedWord t 1, Config.unspecifiedWord t 2, Config.unspecifiedWord t 3⟩

/-- The four accumulators where they hold no value of the spec's. -/
def Config.unspecifiedAcc (t : Nat) : Words :=
  ⟨Config.unspecifiedWord t 4, Config.unspecifiedWord t 5, Config.unspecifiedWord t 6, Config.unspecifiedWord t 7⟩

end Sys2Proof
end

