-- ==== Sys2Proof/Syntax.lean ====
section
/-! DEFINITION. The commands of spec/30_encoding.md R39 (with the reserved opcode of R44), one constructor for each row of
spec/opcode_table.json, and the value of the command port that encodes one (R40). -/

namespace Sys2Proof

/-- The seed operand: exactly 32 bytes, `seed[0]` first (R28). The length is in the type: a seed of another length cannot be
written (U10). -/
abbrev Seed := Vector Byte 32

/-- What the host drives on the command port while `cmd_valid_i` = 1: `cmd_op_i[2:0]` and `seed_i[255:0]` (R23, R40). -/
structure Command where
  op : BitVec 3
  seed : BitVec 256
  deriving DecidableEq, Repr

/-- The commands, one constructor for each row of the opcode table. -/
inductive Instr where
  /-- SEED, opcode 0, format CS (R51). -/
  | seed (material : Seed)
  /-- NEXT, opcode 1 (R61). -/
  | next
  /-- F32CO, opcode 2 (R70). -/
  | f32co
  /-- F32CC, opcode 3 (R71). -/
  | f32cc
  /-- F64CO, opcode 4 (R72). -/
  | f64co
  /-- F64CC, opcode 5 (R73). -/
  | f64cc
  /-- JUMP, opcode 6 (R81). -/
  | jump
  /-- The reserved opcode 7, illegal (R44, R94). -/
  | reserved
  deriving DecidableEq, Repr

end Sys2Proof
end

