-- ==== Sys2Proof/WellFormed.lean ====
section
/-! DEFINITION. Which raw data stand for a command. The types of Instr leave no operand to check (the seed is 32 bytes by type, R28,
and no command has another operand, R41), so the checks stand where a command is made from raw data: an opcode number of the
3-bit port and a seed of 32 bytes. -/

namespace Sys2Proof

/-- A command as raw data: a number for the opcode port and a list of bytes for the seed port. -/
structure RawCommand where
  op : Nat
  seed : List Byte
  deriving DecidableEq, Repr

/-- The opcode is a value of `cmd_op_i[2:0]` (R39, R45: the eight values are the whole encoding space). -/
def RawCommand.opcodeFits (r : RawCommand) : Bool := r.op < 8

/-- The seed has exactly 32 bytes (R28; RX §7 wants any other length inexpressible, U10). -/
def RawCommand.seedFits (r : RawCommand) : Bool := r.seed.length == 32

/-- Both checks: the raw data can be put on the command port. -/
def RawCommand.wellFormed (r : RawCommand) : Bool := r.opcodeFits && r.seedFits

/-- Every term of Instr is a command of the hardware or the reserved opcode: nothing is left to check (R41, R46). -/
def Instr.wellFormed : Instr → Bool
  | .seed _ => true
  | .next => true
  | .f32co => true
  | .f32cc => true
  | .f64co => true
  | .f64cc => true
  | .jump => true
  | .reserved => true

end Sys2Proof
end

