-- ==== Sys2Proof/Decode.lean ====
section
/-! DEFINITION. Decoding the command port (spec/30_encoding.md R39, R40, R46; lanes: spec/20_memory.md R30), the encoder, and the
33-byte image of a command that a table word is read through (log entry 9). -/

namespace Sys2Proof

/-- The 8 bits `x[8i+7:8i]` of a 256-bit value (R30). -/
def lane (x : BitVec 256) (i : Nat) : Byte := x.extractLsb' (8 * i) 8

/-- Byte `i` of the seed is `seed_i[8i+7:8i]`, for `i` from 0 to 31 (R30). -/
def seedLanes (x : BitVec 256) : Seed :=
  #v[lane x 0, lane x 1, lane x 2, lane x 3, lane x 4, lane x 5, lane x 6, lane x 7,
    lane x 8, lane x 9, lane x 10, lane x 11, lane x 12, lane x 13, lane x 14, lane x 15,
    lane x 16, lane x 17, lane x 18, lane x 19, lane x 20, lane x 21, lane x 22, lane x 23,
    lane x 24, lane x 25, lane x 26, lane x 27, lane x 28, lane x 29, lane x 30, lane x 31]

/-- The number whose byte `i`, counted from the least significant, is the `i`-th byte of the list. -/
def lanesNat : List Byte → Nat
  | [] => 0
  | b :: rest => b.toNat + 256 * lanesNat rest

/-- The value of `seed_i` that carries a seed: byte `i` on lanes `8i+7:8i` (R30). -/
def seedPort (m : Seed) : BitVec 256 := BitVec.ofNat 256 (lanesNat m.toList)

/-- R46: decoding is a total function of the 3-bit opcode; `seed_i` is used by opcode 0 alone (R40, R45). -/
def decode (c : Command) : Instr :=
  match c.op.toNat with
  | 0 => .seed (seedLanes c.seed)
  | 1 => .next
  | 2 => .f32co
  | 3 => .f32cc
  | 4 => .f64co
  | 5 => .f64cc
  | 6 => .jump
  | _ => .reserved

/-- The opcode of a command (R39, R44). -/
def opcodeOf : Instr → BitVec 3
  | .seed _ => 0b000#3
  | .next => 0b001#3
  | .f32co => 0b010#3
  | .f32cc => 0b011#3
  | .f64co => 0b100#3
  | .f64cc => 0b101#3
  | .jump => 0b110#3
  | .reserved => 0b111#3

/-- What the seed port carries with a command: the seed with SEED; with the other opcodes the port is ignored (R40) and the encoder
puts zeros on it. -/
def seedPortOf : Instr → BitVec 256
  | .seed m => seedPort m
  | .next => 0#256
  | .f32co => 0#256
  | .f32cc => 0#256
  | .f64co => 0#256
  | .f64cc => 0#256
  | .jump => 0#256
  | .reserved => 0#256

/-- The command port's value for a command (R39, R40). -/
def encode (i : Instr) : Command := ⟨opcodeOf i, seedPortOf i⟩

/-- Why raw data are no command. -/
inductive Reject where
  /-- No byte at all: there is no opcode. -/
  | noOpcode
  /-- The opcode number does not fit `cmd_op_i[2:0]` (R39). -/
  | opcodeTooWide (n : Nat)
  /-- The seed has not exactly 32 bytes (R28, U10). -/
  | seedLength (n : Nat)
  deriving DecidableEq, Repr

/-- Put raw data on the command port, or say why that cannot be done (R28, R39). -/
def RawCommand.toCommand (r : RawCommand) : Except Reject Command :=
  if r.op < 8 then
    if r.seed.length = 32 then .ok ⟨BitVec.ofNat 3 r.op, BitVec.ofNat 256 (lanesNat r.seed)⟩
    else .error (.seedLength r.seed.length)
  else .error (.opcodeTooWide r.op)

/-- Decode the byte image of a command: one opcode byte, then the 32 bytes of the seed port, byte 0 first (log entry 9). Total, and
rejecting by name. -/
def decodeBytes : List Byte → Except Reject Instr
  | [] => .error .noOpcode
  | op :: rest =>
    match (RawCommand.mk op.toNat rest).toCommand with
    | .ok c => .ok (decode c)
    | .error e => .error e

/-- The byte image of a command. -/
def encodeBytes (i : Instr) : List Byte :=
  (encode i).op.setWidth 8 :: (seedLanes (encode i).seed).toList

/-- The first 33 bytes of a number, least significant first. -/
def imageOfNat (n : Nat) : List Byte := (List.range 33).map fun i => BitVec.ofNat 8 (n >>> (8 * i))

/-- The command on the port for an instruction word numbered as spec/opcode_table.json numbers it: the opcode in bits 2..0 and seed
byte `i` in bits `8i+15 : 8i+8` (log entry 9); the bits above `nbits` are 0. -/
def commandOfWord (nbits w : Nat) : Command :=
  ⟨BitVec.ofNat 3 (w % 2 ^ nbits), BitVec.ofNat 256 ((w % 2 ^ nbits) >>> 8)⟩

/-- The instruction the decoder reads from a table word: the word is laid out as the byte image and given to `decodeBytes`. -/
def decodeTableWord (nbits w : Nat) : Option Instr :=
  match decodeBytes (imageOfNat (w % 2 ^ nbits)) with
  | .ok i => some i
  | .error _ => none

end Sys2Proof
end

