-- ==== Sys2Proof/Machine/State.lean ====
section
/-! DEFINITION. The machine's state (spec/10_state.md R10 to R26), what its step can stop with, and the state after reset. Plain data.
The block has no memory (spec/20_memory.md R27) and no program counter (R17). -/

namespace Sys2Proof.Machine

/-- This hardware has no fault: every command on every state yields a next state and a response (R46, R92), and the two errors are
responses (R93, R99), executed exactly. No constructor, so nothing can raise one. -/
inductive Fault
  deriving DecidableEq, Repr

/-- Why a step is refused. -/
inductive Refusal where
  /-- An arm of exec without a meaning yet. Raised by no arm of this model. Safe. -/
  | notModelled (mnemonic : String)
  /-- Raised by the step alone: the host withdrew or changed a presented command before it was accepted, which the spec leaves
  undefined and a model refuses (R115, U8). Safe. -/
  | handshakeBroken
  deriving DecidableEq, Repr

/-- The error codes a response can carry: three, code 3 is never produced (R93, U6). -/
inductive ErrCode where
  /-- 0: the command was performed. -/
  | ok
  /-- 1: the accepted opcode is 111 (R94). -/
  | illegalCmd
  /-- 2: a command that reads the state, while SEEDED = 0 (R95). -/
  | notSeeded
  deriving DecidableEq, Repr

/-- The response to a command: `rsp_err` and `rsp_data` (R42). -/
structure Response where
  err : ErrCode
  data : Word
  deriving DecidableEq, Repr

/-- The level of `rst` in one sample of the input ports (R23, R107, R108). -/
inductive RstLevel where
  /-- Released. -/
  | low
  /-- Asserted: the reset event (R107). -/
  | high
  /-- Asserted after the command that this sample presents has been accepted and has made `k` of its transitions (all of them, if it
  makes no more than `k`): the command is abandoned (R108). -/
  | during (k : Nat)
  deriving DecidableEq, Repr

/-- One sample of the input ports (R23): `rst`; the command port, `none` for `cmd_valid_i` = 0; `rsp_ready_i`. -/
structure Inputs where
  rst : RstLevel
  cmd : Option Command
  rspReady : Bool
  deriving DecidableEq, Repr

/-- One instance of the block, with what its host drives. -/
structure State where
  /-- `s[0..3]` (R10). -/
  words : Words
  /-- `SEEDED` (R14). -/
  seeded : Bool
  /-- `BUSY` (R15). -/
  busy : Bool
  /-- `acc[0..3]` of the jump engine (R18). -/
  acc : Words
  /-- `jidx` of the jump engine, 0 to 255 (R18). -/
  jidx : BitVec 8
  /-- The response being presented: `some` exactly when `rsp_valid_o` = 1 (R24). -/
  rsp : Option Response
  /-- A command that the host presents and the block has not accepted (R24, R96). -/
  waiting : Option Command
  /-- What the host will drive on the input ports, one sample for each step (log entry 6). -/
  inputs : List Inputs
  /-- The model's own: how many times `step_o` has pulsed (R104; log entry 5). -/
  stepPulses : Nat
  /-- The model's own: some response had `rsp_err` ≠ 0 (R101, R106; log entry 4). -/
  errorMark : Bool
  /-- The model's own: the number of the step, the index of the free values (log entry 3). -/
  now : Nat
  deriving DecidableEq, Repr

/-- The machine as a reset event at power on leaves it, whatever the words `w`, the accumulators `a` and the index `j` hold, which the
spec leaves without a value (R26). The host drives nothing. -/
def State.powerOn (w a : Words) (j : BitVec 8) : State :=
  { words := w, seeded := false, busy := false, acc := a, jidx := j, rsp := none, waiting := none, inputs := []
    stepPulses := 0, errorMark := false, now := 0 }

/-- The machine right after reset (R26). SEEDED, BUSY and the response are the spec's; the zeros in the state words, the accumulators
and the index are the model's (DESIGN CHOICE, log entries 1 and 2). -/
def State.reset : State := State.powerOn Words.zero Words.zero 0#8

end Sys2Proof.Machine
end

