-- ==== Sys2Proof/Machine/Flags.lean ====
section
/-! DEFINITION. The two status flags, SEEDED and BUSY (spec/10_state.md R14, R15): what sets and clears each. There is no other flag,
and no command computes a carry, overflow, zero, sign or floating-point flag (R16). -/

namespace Sys2Proof.Machine

/-- SEED sets SEEDED (R14, R54). -/
def setSeeded (s : State) : State := { s with seeded := true }

/-- The reset event clears SEEDED, and nothing else does (R14, R107). -/
def clearSeeded (s : State) : State := { s with seeded := false }

/-- BUSY is 1 from the acceptance of a command (R15). -/
def setBusy (s : State) : State := { s with busy := true }

/-- BUSY is 0 again once the response is taken (R15, R24), and after reset (R107). -/
def clearBusy (s : State) : State := { s with busy := false }

end Sys2Proof.Machine
end

