-- ==== Sys2Proof/Machine/Ops.lean ====
section
/-! DEFINITION. The shared operations: the integer primitives (spec/00_scope.md R7), the output word and the transition
(spec/41_next.md R57, R58), the two ways a command ends (R6 `respond`, `raise`), and what acceptance, taking a response and reset do
to the state (spec/10_state.md R24, spec/70_reset_and_hazards.md R107). -/

namespace Sys2Proof.Machine

/-- `xor(a, b)` (R7). -/
def xor64 (a b : Word) : Word := a ^^^ b

/-- `or(a, b)` (R7). -/
def or64 (a b : Word) : Word := a ||| b

/-- `mul64(a, b)`: the low 64 bits of the product (R7). -/
def mul64 (a b : Word) : Word := a * b

/-- `shl64(a, k)`, bits shifted out are discarded (R7). Used with k = 17, 7 and 45 only (U16). -/
def shl64 (a : Word) (k : Nat) : Word := a <<< k

/-- `shr64(a, k)`, zeros enter at the top (R7). -/
def shr64 (a : Word) (k : Nat) : Word := a >>> k

/-- `rotl64(a, k)` for 0 < k < 64 (R7). Used with k = 7 and 45 only (U16). -/
def rotl64 (a : Word) (k : Nat) : Word := or64 (shl64 a k) (shr64 a (64 - k))

/-- `Out(s)`: the output word, a function of `s[1]` alone (R57). -/
def out (w : Words) : Word := mul64 (rotl64 (mul64 w.s1 5#64) 7) 9#64

/-- `Step(s)`: seven assignments one after another, each reading what the ones before it left (R58, R59; conflict C1). -/
def transition (w : Words) : Words :=
  let t := shl64 w.s1 17
  let s2 := xor64 w.s2 w.s0
  let s3 := xor64 w.s3 w.s1
  let s1 := xor64 w.s1 s2
  let s0 := xor64 w.s0 s3
  let s2 := xor64 s2 t
  let s3 := rotl64 s3 45
  ⟨s0, s1, s2, s3⟩

/-- One transition of the state words; `step_o` pulses once (R66, R104). -/
def transit (s : State) : State := { s with words := transition s.words, stepPulses := s.stepPulses + 1 }

/-- All four state words are overwritten together (R34, R51, R84). -/
def loadWords (w : Words) (s : State) : State := { s with words := w }

/-- `respond(v)`: the command ends normally (R6, R42). -/
def respond (v : Word) (s : State) : State := { s with rsp := some ⟨.ok, v⟩ }

/-- `raise E`, TAKING AN EXCEPTION, in full: the response carries the code and data 0, and nothing else of the hardware changes; no
state is saved, no mode changes, control goes nowhere (R99). The model's own permanent mark is set (R101, R106). There is no return
from an exception and nothing to restore (R101). -/
def raise (e : ErrCode) (s : State) : State := { s with rsp := some ⟨e, 0#64⟩, errorMark := true }

/-- The guard of the six commands that read the state words: while SEEDED = 0 they raise NOT_SEEDED and read nothing (R65, R77, R88,
R95). -/
def whenSeeded (s : State) (performed : State) : Host.Outcome State Fault Refusal :=
  match s.seeded with
  | true => .next performed
  | false => .next (raise .notSeeded s)

/-- Draw one raw word: it is taken from the state before the transition, then the state advances once, and the response is `f` of the
word (R61, R67). -/
def drawWord (f : Word → Word) (s : State) : Host.Outcome State Fault Refusal :=
  whenSeeded s (respond (f (out s.words)) (transit s))

/-- A command is accepted: BUSY is set, nothing waits on the port, and no response is presented until the command ends (R24). -/
def accept (s : State) : State := setBusy { s with waiting := none, rsp := none }

/-- The response is taken: BUSY is cleared (R24). -/
def takeResponse (s : State) : State := clearBusy { s with rsp := none }

/-- The reset event (R107): SEEDED, BUSY and the response are cleared, whatever was in flight is discarded (R108), and the state words,
the accumulators and the index hold no value of the spec's: they are free values (log entry 2). What the host drives, now and later, and the
model's own counts stay: a command that is presented in the reset is not accepted, waits, and stays under the handshake rule (DEDUCED from R107,
R115 and U8, log entry 12). -/
def resetEvent (s : State) : State :=
  clearSeeded (clearBusy
    { s with
      words := Config.unspecifiedState s.now
      acc := Config.unspecifiedAcc s.now
      jidx := Config.unspecifiedIndex s.now
      rsp := none })

end Sys2Proof.Machine
end

