-- ==== Sys2Proof/Machine/Jump.lean ====
section
/-! DEFINITION. Family jump: JUMP and the sub-block `xoshiro_jump_engine` (spec/43_jump.md). -/

namespace Sys2Proof.Machine

/-- `JUMP_POLY[0..3]`: a constant of the hardware (R80, R20). -/
def jumpPoly : Vector Word 4 :=
  #v[0x180EC6D33CFD0ABA#64, 0xD5A61266F0C9392C#64, 0xA9582618E03FC9AA#64, 0x39ABDC4529B1661C#64]

/-- `JUMP_ITERS`: the transitions performed by one JUMP (R5, R81, R85). -/
def jumpIters : Nat := 256

/-- The table bit of iteration `k`: bit `k mod 64` of word `k div 64`, words in the listed order, bits from the least significant
(R80, R82). -/
def jumpBit (k : BitVec 8) : Bool := (jumpPoly[k.toNat / 64]'(by omega)).getLsbD (k.toNat % 64)

/-- What the engine works on: the state words, the accumulators and the index (R18), and the pulses of `step_o` (R104). -/
structure JumpEngine where
  words : Words
  acc : Words
  jidx : BitVec 8
  pulses : Nat
  deriving DecidableEq, Repr

/-- At the start of every JUMP the accumulators and the index are set to zero (R18, R81). -/
def jumpStart (s : State) : State := { s with acc := Words.zero, jidx := 0#8 }

/-- The engine takes its part of the state. -/
def engineOf (s : State) : JumpEngine := ⟨s.words, s.acc, s.jidx, s.stepPulses⟩

/-- The engine gives its part of the state back. -/
def storeEngine (e : JumpEngine) (s : State) : State :=
  { s with words := e.words, acc := e.acc, jidx := e.jidx, stepPulses := e.pulses }

/-- One iteration: if the table bit is 1 the current state words, those before this iteration's transition, are added into the
accumulators; then, always, one transition, with its pulse of `step_o` (R81, R83, R104); the index counts on. -/
def jumpIteration (e : JumpEngine) : JumpEngine :=
  { words := transition e.words
    acc := if jumpBit e.jidx then e.acc.xor e.words else e.acc
    jidx := e.jidx + 1#8
    pulses := e.pulses + 1 }

/-- `n` iterations, one after another. -/
def jumpIterations : Nat → JumpEngine → JumpEngine
  | 0, e => e
  | n + 1, e => jumpIterations n (jumpIteration e)

/-- The state words are overwritten with the accumulators; the state of the last transition is dropped (R84). -/
def jumpCommit (s : State) : State := loadWords s.acc s

/-- After a JUMP the accumulators and the index hold no value that the spec gives: free values (R18, U11; log entry 3). -/
def jumpRelease (s : State) : State :=
  { s with acc := Config.unspecifiedAcc s.now, jidx := Config.unspecifiedIndex s.now }

/-- The state after the iterations and the commit of one JUMP (R81). -/
def jumped (s : State) : State :=
  jumpRelease (jumpCommit (storeEngine (jumpIterations jumpIters (engineOf (jumpStart s))) s))

/-- JUMP (R81): `JUMP_ITERS` iterations, the commit, response 0. -/
def execJump (s : State) : Host.Outcome State Fault Refusal := whenSeeded s (respond 0#64 (jumped s))

end Sys2Proof.Machine
end

