-- ==== Sys2Proof/Machine/Next.lean ====
section
/-! DEFINITION. Family core step: NEXT (spec/41_next.md). -/

namespace Sys2Proof.Machine

/-- NEXT (R61): the raw word itself is the response. -/
def execNext (s : State) : Host.Outcome State Fault Refusal := drawWord (fun w => w) s

end Sys2Proof.Machine
end

