-- ==== Sys2Proof/Machine/Reserved.lean ====
section
/-! DEFINITION. The reserved opcode 111 (spec/30_encoding.md R44, spec/60_exceptions.md R94). -/

namespace Sys2Proof.Machine

/-- A command accepted with opcode 7 raises ILLEGAL_CMD, whatever SEEDED is, and has no other effect (R44, R94, R98). -/
def execReserved (s : State) : Host.Outcome State Fault Refusal := .next (raise .illegalCmd s)

end Sys2Proof.Machine
end

