-- ==== Sys2Proof/Machine/Scalers.lean ====
section
/-! DEFINITION. Family scalers: F32CO, F32CC, F64CO, F64CC (spec/42_scalers.md), with the rounding and the encoding of
spec/00_scope.md R8, R9. -/

namespace Sys2Proof.Machine

/-- `bitlen(n)`: the position of the most significant 1 bit, plus 1; 0 for 0 (R8). -/
def bitlen (n : Nat) : Nat := if n = 0 then 0 else n.log2 + 1

/-- `rne(n, p)`: rounding to `p` significant bits, to nearest, ties to even (R8). -/
def rne (n p : Nat) : Nat :=
  if n = 0 then 0
  else if bitlen n ≤ p then n
  else
    let sh := bitlen n - p
    let q := n / 2 ^ sh
    let r := n % 2 ^ sh
    let half := 2 ^ (sh - 1)
    if r > half ∨ (r = half ∧ q % 2 = 1) then (q + 1) * 2 ^ sh else q * 2 ^ sh

/-- `fpenc(m, k, p, ebits, bias)`: the bit pattern of `m / 2^k` (R9). The biased exponent is computed exactly, as an integer. -/
def fpenc (m k p ebits bias : Nat) : BitVec (1 + ebits + (p - 1)) :=
  if m = 0 then 0#_
  else
    let l := bitlen m
    let e : Int := ((l : Int) - 1 - k) + bias
    let frac := if l ≤ p then (m * 2 ^ (p - l)) % 2 ^ (p - 1) else (m / 2 ^ (l - p)) % 2 ^ (p - 1)
    0#1 ++ BitVec.ofInt ebits e ++ BitVec.ofNat (p - 1) frac

/-- The quotient `n / d` of positive numbers rounded once to a `p`-bit significand, as a bit pattern: `n * 2^K / d` is taken with two
bits more than the significand needs, the remainder is kept as one sticky bit, and the result is rounded by `rne` (R69 `fl` of a
quotient, R79; log entry 11). `d` is not 0 in any use. -/
def fpquot (n d p ebits bias : Nat) : BitVec (1 + ebits + (p - 1)) :=
  let k := p + 2 + bitlen d
  let q := n * 2 ^ k / d
  let sticky := if n * 2 ^ k % d = 0 then 0 else 1
  fpenc (rne (2 * q + sticky) p) (k + 1) p ebits bias

/-- `SCALER_ROUNDING`: stepwise, the value the spec takes (R5, R69, decision D11; log entry 11). -/
def scalerRounding : ScalerRounding := .stepwise

/-- F32CO of a raw word: its high 24 bits over `2^24`, exact (R70). -/
def scaleF32CO (w : Word) : Word :=
  let n := (shr64 w 40).toNat
  (fpenc n 24 24 8 127).setWidth 64

/-- F32CC of a raw word: its high 32 bits over `2^32 - 1` (R71), in either reading of the division (R69, R79). -/
def scaleF32CC (r : ScalerRounding) (w : Word) : Word :=
  let n := (shr64 w 32).toNat
  match r with
  | .stepwise => (fpenc (rne n 24) 32 24 8 127).setWidth 64
  | .exactQuotient => (fpquot n (2 ^ 32 - 1) 24 8 127).setWidth 64

/-- F64CO of a raw word: its high 53 bits over `2^53`, exact (R72). -/
def scaleF64CO (w : Word) : Word :=
  let n := (shr64 w 11).toNat
  (fpenc n 53 53 11 1023).setWidth 64

/-- F64CC of a raw word: all of it over `2^64 - 1` (R73), in either reading of the division (R69, R79). -/
def scaleF64CC (r : ScalerRounding) (w : Word) : Word :=
  let n := w.toNat
  match r with
  | .stepwise => (fpenc (rne n 53) 64 53 11 1023).setWidth 64
  | .exactQuotient => (fpquot n (2 ^ 64 - 1) 53 11 1023).setWidth 64

/-- F32CO (R67, R70). -/
def execF32CO (s : State) : Host.Outcome State Fault Refusal := drawWord scaleF32CO s

/-- F32CC (R67, R71). -/
def execF32CC (s : State) : Host.Outcome State Fault Refusal := drawWord (scaleF32CC scalerRounding) s

/-- F64CO (R67, R72). -/
def execF64CO (s : State) : Host.Outcome State Fault Refusal := drawWord scaleF64CO s

/-- F64CC (R67, R73). -/
def execF64CC (s : State) : Host.Outcome State Fault Refusal := drawWord (scaleF64CC scalerRounding) s

end Sys2Proof.Machine
end

