-- ==== Sys2Proof/Machine/Operands.lean ====
section
/-! DEFINITION. The one assembled operand of the command set, SEED's 32 bytes (spec/30_encoding.md R41): the big-endian packing
(spec/20_memory.md R29), the normalizer from port bits to words (spec/40_seed.md R50, R53) and its inverse (R55). -/

namespace Sys2Proof.Machine

/-- Word `j` of the packed seed: bytes `seed[8j]` to `seed[8j+7]`, the first the most significant (R29). -/
def packWord (m : Seed) (j : Fin 4) : Word :=
  m[8 * j.val] ++ m[8 * j.val + 1] ++ m[8 * j.val + 2] ++ m[8 * j.val + 3] ++ m[8 * j.val + 4] ++ m[8 * j.val + 5]
    ++ m[8 * j.val + 6] ++ m[8 * j.val + 7]

/-- The four words of a seed (R29, R51). -/
def packSeed (m : Seed) : Words := ⟨packWord m 0, packWord m 1, packWord m 2, packWord m 3⟩

/-- `seeding_endian_normalizer`: from the 256 bits of `seed_i` to `seedw[0..3]` (R50, R53). -/
def normalizer (x : BitVec 256) : Words := packSeed (seedLanes x)

/-- Byte `m` of word `j`, the most significant first: `s[j][8*(7-m)+7 : 8*(7-m)]` (R55). -/
def byteOf (w : Words) (j : Fin 4) (m : Nat) : Byte := (w.get j).extractLsb' (8 * (7 - m)) 8

/-- The seed that loads given words: `seed[8j+m] = s[j][8*(7-m)+7 : 8*(7-m)]` (R55). -/
def seedOfWords (w : Words) : Seed :=
  #v[byteOf w 0 0, byteOf w 0 1, byteOf w 0 2, byteOf w 0 3, byteOf w 0 4, byteOf w 0 5, byteOf w 0 6, byteOf w 0 7,
    byteOf w 1 0, byteOf w 1 1, byteOf w 1 2, byteOf w 1 3, byteOf w 1 4, byteOf w 1 5, byteOf w 1 6, byteOf w 1 7,
    byteOf w 2 0, byteOf w 2 1, byteOf w 2 2, byteOf w 2 3, byteOf w 2 4, byteOf w 2 5, byteOf w 2 6, byteOf w 2 7,
    byteOf w 3 0, byteOf w 3 1, byteOf w 3 2, byteOf w 3 3, byteOf w 3 4, byteOf w 3 5, byteOf w 3 6, byteOf w 3 7]

end Sys2Proof.Machine
end

