-- ==== Sys2Proof/Machine/Seeding.lean ====
section
/-! DEFINITION. Family seeding: SEED (spec/40_seed.md). -/

namespace Sys2Proof.Machine

/-- SEED (R51): the four words are overwritten with the packed seed, whatever they held, SEEDED is set, the response is 0. No error in
any state; the seed is not checked (R52) and not kept (R21); no transition, and the accumulators are not touched (R54). -/
def execSeed (m : Seed) (s : State) : Host.Outcome State Fault Refusal :=
  .next (respond 0#64 (setSeeded (loadWords (packSeed m) s)))

end Sys2Proof.Machine
end

