-- ==== Sys2Proof/Machine/Dispatch.lean ====
section
/-! DEFINITION. The meaning of each command on the state that its acceptance leaves, one arm for each constructor. -/

namespace Sys2Proof.Machine

def exec (i : Instr) (s : State) : Host.Outcome State Fault Refusal :=
  match i with
  | .seed m => Sys2Proof.Machine.execSeed m s
  | .next => Sys2Proof.Machine.execNext s
  | .f32co => Sys2Proof.Machine.execF32CO s
  | .f32cc => Sys2Proof.Machine.execF32CC s
  | .f64co => Sys2Proof.Machine.execF64CO s
  | .f64cc => Sys2Proof.Machine.execF64CC s
  | .jump => Sys2Proof.Machine.execJump s
  | .reserved => Sys2Proof.Machine.execReserved s

end Sys2Proof.Machine
end

