-- ==== Sys2Proof/Machine/Ports.lean ====
section
/-! DEFINITION. The ports (spec/10_state.md R23): what the host drives at this step, the handshake rule of R24, and the output ports
as functions of the state. -/

namespace Sys2Proof.Machine

/-- The input ports at this step. When the host has nothing more to drive it holds what it presents and does nothing else. -/
def port (s : State) : Inputs :=
  match s.inputs with
  | [] => ⟨.low, s.waiting, false⟩
  | i :: _ => i

/-- Time moves to the next sample of the input ports. -/
def advance (s : State) : State := { s with inputs := s.inputs.tail, now := s.now + 1 }

/-- Two values of the command port that the block cannot tell apart: they decode to the same command (`seed_i` is not sampled with a
format C opcode, R40; log entry 7). -/
def samePresented (a b : Option Command) : Bool := a.map decode == b.map decode

/-- The host broke the handshake: a command that waits was withdrawn or changed before it was accepted (R115, U8; log entry 7),
in whatever sample, also one with a reset (log entry 13). -/
def handshakeBroken (s : State) : Bool := s.waiting.isSome && !samePresented s.waiting (port s).cmd

/-- `cmd_ready_o`: not BUSY outside reset (R15, R23, R107). In a sample whose reset comes inside the command (`RstLevel.during`) it is what
the block shows before `rst` is asserted, when the command is accepted (DEDUCED from R108, log entry 8). -/
def cmdReadyO (s : State) : Bool := !s.busy && (port s).rst != .high

/-- `rsp_valid_o` (R24). In a sample with a reset it still shows what was before the reset event (DESIGN CHOICE, log entry 14). -/
def rspValidO (s : State) : Bool := s.rsp.isSome

/-- The 2-bit code of an error (R93). -/
def errBits : ErrCode → BitVec 2
  | .ok => 0#2
  | .illegalCmd => 1#2
  | .notSeeded => 2#2

/-- `rsp_err_o`: the code of the response presented, a free value while none is (R26, R93, U3). As `rsp_valid_o` in a
sample with a reset (log entry 14). -/
def rspErrO (s : State) : BitVec 2 :=
  match s.rsp with
  | some r => errBits r.err
  | none => Config.unspecifiedRspErr s.now

/-- `rsp_data_o`: the data of the response presented, a free value while none is (R26, R43, U3). As `rsp_valid_o` in a
sample with a reset (log entry 14). -/
def rspDataO (s : State) : Word :=
  match s.rsp with
  | some r => r.data
  | none => Config.unspecifiedRspData s.now

/-- `seeded_o` (R14). In a sample with a reset it still shows what was before the reset event (DESIGN CHOICE, log entry 14). -/
def seededO (s : State) : Bool := s.seeded

/-- `state_o`: the four state words, `s[0]` in the low quarter, while SEEDED = 1 and BUSY = 0, and a free value at any other time
(R25, U2). In a sample with a reset it still shows what was before the reset event (DESIGN CHOICE, log entry 14). -/
def stateO (s : State) : BitVec 256 :=
  match s.seeded && !s.busy with
  | true => s.words.s3 ++ s.words.s2 ++ s.words.s1 ++ s.words.s0
  | false => Config.unspecifiedStateO s.now

/-- The pulses of `step_o` between two states of a run, where the output exists (R104, D29). -/
def stepO (before after : State) : Option Nat :=
  if Config.hasStepStrobe then some (after.stepPulses - before.stepPulses) else none

end Sys2Proof.Machine
end

