-- ==== Sys2Proof/Machine/Step.lean ====
section
/-! DEFINITION. One step: one sample of the input ports and what the transaction rule makes of it (spec/10_state.md R24). -/

namespace Sys2Proof.Machine

/-- The transitions a command performs when it is not refused, the last column of R12. -/
def transitionsOf : Instr → Nat
  | .seed _ => 0
  | .next => 1
  | .f32co => 1
  | .f32cc => 1
  | .f64co => 1
  | .f64cc => 1
  | .jump => 256
  | .reserved => 0

/-- The transitions a command performs on a state: none while SEEDED = 0, where only SEED, which makes none, is performed (R12, R95). -/
def transitions (i : Instr) (s : State) : Nat :=
  match s.seeded with
  | true => transitionsOf i
  | false => 0

/-- A command is abandoned by a reset after `k` of its transitions: no response, and the machine is in the reset state; the pulses that
`step_o` has made stay made (R108, R104). -/
def abandon (k : Nat) (i : Instr) (s : State) : State :=
  resetEvent { s with stepPulses := s.stepPulses + min k (transitions i s) }

/-- What the block makes of the ports while the handshake is kept. `s` has moved to the next sample, `i` is the sample. In reset: the reset
event, and a presented command waits (R107). Busy: a presented command waits (R96), and the response presented is taken if
`rsp_ready_i` = 1; a reset inside the sample discards it (R108). Idle: a presented command is accepted and performed (R24), or abandoned by a
reset inside the sample (R108); with none presented nothing happens (R105). -/
def transact (i : Inputs) (s : State) : Host.Outcome State Fault Refusal :=
  match i.rst, s.busy, i.cmd with
  | .high, _, c => .next (resetEvent { s with waiting := c })
  | .during _, true, c => .next (resetEvent { s with waiting := c })
  | .during k, false, some c => .next (abandon k (decode c) (accept s))
  | .during _, false, none => .next (resetEvent { s with waiting := none })
  | .low, true, c => .next (if i.rspReady && s.rsp.isSome then takeResponse { s with waiting := c } else { s with waiting := c })
  | .low, false, some c => exec (decode c) (accept s)
  | .low, false, none => .next { s with waiting := none }

/-- One step of the machine with its host. A run whose host breaks the handshake is no run of the model (U8), so the handshake is judged first,
in every sample, also where `rst` is asserted in it (DESIGN CHOICE, log entry 13; R98, R107, R108 and U8 do not say which comes first).
Otherwise a reset overrides everything (R98, R107). -/
def step (s : State) : Host.Outcome State Fault Refusal :=
  if handshakeBroken s then .refused .handshakeBroken else transact (port s) (advance s)

/-- The machine with a command on its port, idle and with nothing else presented, so that the very next step accepts and performs
exactly that command (log entry 6). -/
def State.withFetchWord (s : State) (nbits w : Nat) : State :=
  { s with
    busy := false
    rsp := none
    waiting := none
    inputs := ⟨.low, some (commandOfWord nbits w), false⟩ :: s.inputs.tail }

end Sys2Proof.Machine
end

