-- ==== Sys2Proof/Machine/Script.lean ====
section
/-! DEFINITION. The transaction-level view (spec/10_state.md R24: a function from state and command to state and response) and the
script syntax (spec/30_encoding.md R47, R48, R49): the text of a line, what it stands for, and what its host drives on the ports. -/

namespace Sys2Proof.Machine

/-- One whole transaction on an idle machine: the command is accepted, performed, and its response taken; the response is the second
result (R24). -/
def transaction (i : Instr) (s : State) : Option (State × Response) :=
  match exec i (accept s) with
  | .next t => t.rsp.map fun r => (takeResponse t, r)
  | .fault _ => none
  | .refused _ => none

/-- A sequence of whole transactions, with the responses in order (R24, R36). -/
def transactions : List Instr → State → Option (State × List Response)
  | [], s => some (s, [])
  | i :: rest, s =>
    match transaction i s with
    | none => none
    | some (t, r) =>
      match transactions rest t with
      | none => none
      | some (u, rs) => some (u, r :: rs)

/-- What one line of a script stands for (R47): a command, the pseudo-instruction LOADSTATE, or the directive RESET. -/
inductive ScriptLine where
  | command (i : Instr)
  | loadState (w : Words)
  | reset
  deriving DecidableEq, Repr

/-- LOADSTATE: the SEED command whose bytes are the big-endian serialisation of the four words (R48). -/
def loadStateCommand (w : Words) : Instr := .seed (seedOfWords w)

/-- What the host drives for one command: it presents the command, then takes the response (R24). -/
def commandSamples (i : Instr) : List Inputs :=
  [⟨.low, some (encode i), false⟩, ⟨.low, none, true⟩]

/-- What the host drives for one line (R47, R48, R49). -/
def ScriptLine.samples : ScriptLine → List Inputs
  | .command i => commandSamples i
  | .loadState w => commandSamples (loadStateCommand w)
  | .reset => [⟨.high, none, false⟩]

/-- The machine with a script for its host to drive: how a program is loaded (log entry 6). -/
def State.withScript (s : State) (p : List ScriptLine) : State :=
  { s with inputs := p.flatMap ScriptLine.samples }

/-! The text of a line, as a list of characters (log entry 10). -/

/-- A hexadecimal digit. -/
def hexDigit (c : Char) : Option Nat :=
  if '0'.toNat ≤ c.toNat ∧ c.toNat ≤ '9'.toNat then some (c.toNat - '0'.toNat)
  else if 'A'.toNat ≤ c.toNat ∧ c.toNat ≤ 'F'.toNat then some (c.toNat - 'A'.toNat + 10)
  else if 'a'.toNat ≤ c.toNat ∧ c.toNat ≤ 'f'.toNat then some (c.toNat - 'a'.toNat + 10)
  else none

/-- A number from its hexadecimal digits, the most significant first; `acc` is the value of the digits before. -/
def hexNat (acc : Nat) : List Char → Option Nat
  | [] => some acc
  | c :: cs =>
    match hexDigit c with
    | some d => hexNat (16 * acc + d) cs
    | none => none

/-- Bytes from pairs of hexadecimal digits (R47 `hex64bytes`). -/
def hexBytes : List Char → Option (List Byte)
  | [] => some []
  | [_] => none
  | a :: b :: cs =>
    match hexNat 0 [a, b], hexBytes cs with
    | some n, some bs => some (BitVec.ofNat 8 n :: bs)
    | _, _ => none

/-- The seed of a SEED line: 64 hexadecimal digits, `seed[0]` first. -/
def seedOfText (cs : List Char) : Option Seed :=
  match hexBytes cs with
  | none => none
  | some bs => if h : bs.length = 32 then some ⟨bs.toArray, by simpa using h⟩ else none

/-- A `word`: `0x` and 1 to 16 hexadecimal digits. -/
def wordOfText : List Char → Option Word
  | '0' :: 'x' :: ds => if 1 ≤ ds.length ∧ ds.length ≤ 16 then (hexNat 0 ds).map (BitVec.ofNat 64) else none
  | _ => none

/-- The words of a line, separated by blanks; `cur` holds the current one, last character first. -/
def splitBlanks (cur : List Char) : List Char → List (List Char)
  | [] => if cur.isEmpty then [] else [cur.reverse]
  | c :: cs =>
    if c = ' ' then (if cur.isEmpty then splitBlanks [] cs else cur.reverse :: splitBlanks [] cs)
    else splitBlanks (c :: cur) cs

/-- One line of a script, without its comment (R47). -/
def parseLine (line : List Char) : Option ScriptLine :=
  match splitBlanks [] (line.takeWhile (· != '#')) with
  | [['S', 'E', 'E', 'D'], d] => (seedOfText d).map fun m => .command (.seed m)
  | [['N', 'E', 'X', 'T']] => some (.command .next)
  | [['F', '3', '2', 'C', 'O']] => some (.command .f32co)
  | [['F', '3', '2', 'C', 'C']] => some (.command .f32cc)
  | [['F', '6', '4', 'C', 'O']] => some (.command .f64co)
  | [['F', '6', '4', 'C', 'C']] => some (.command .f64cc)
  | [['J', 'U', 'M', 'P']] => some (.command .jump)
  | [['I', 'L', 'L', 'E', 'G', 'A', 'L']] => some (.command .reserved)
  | [['L', 'O', 'A', 'D', 'S', 'T', 'A', 'T', 'E'], a, b, c, d] =>
    match wordOfText a, wordOfText b, wordOfText c, wordOfText d with
    | some a, some b, some c, some d => some (.loadState ⟨a, b, c, d⟩)
    | _, _, _, _ => none
  | [['R', 'E', 'S', 'E', 'T']] => some .reset
  | _ => none

end Sys2Proof.Machine
end

