-- ==== Sys2Proof/Safety.lean ====
section
/-! DEFINITION. The terms of the claims: the invariant that every step keeps, what a clean run is (spec/60_exceptions.md R106), when two
machines cannot be told apart, and the number that a float pattern stands for (spec/42_scalers.md R68). -/

namespace Sys2Proof.Machine

/-- What an error response looks like: data 0, the permanent mark set, and NOT_SEEDED only while SEEDED = 0 (R93, R95, R101). -/
def responseFits (s : State) : Option Response → Bool
  | none => true
  | some r =>
    match r.err with
    | .ok => s.seeded
    | .illegalCmd => r.data == 0#64 && s.errorMark
    | .notSeeded => r.data == 0#64 && s.errorMark && !s.seeded

/-- The invariant: BUSY is 1 exactly while a response is presented (R15, R24: a step ends at a handshake, with every accepted command
performed), and the response fits the state. -/
abbrev State.Inv (s : State) : Prop := s.busy = s.rsp.isSome ∧ responseFits s s.rsp = true

/-- No response so far had `rsp_err` ≠ 0 (R106): the premise a claim about a script takes. -/
abbrev State.Clean (s : State) : Prop := s.errorMark = false

/-- The machine is idle and its host presents nothing yet (R105). -/
abbrev State.Idle (s : State) : Prop := s.busy = false ∧ s.rsp = none ∧ s.waiting = none

/-- Two machines that the host cannot tell apart at the ports, now or later, if it drives both alike: all that the ports show or a
command reads is equal. The state words count only while SEEDED = 1 (R26, R95); the accumulators, the index and the model's own counts
do not count (R18). -/
abbrev State.Alike (s t : State) : Prop :=
  s.seeded = t.seeded ∧ (s.seeded = true → s.words = t.words) ∧ s.busy = t.busy ∧ s.rsp = t.rsp ∧ s.waiting = t.waiting
    ∧ s.inputs = t.inputs

/-- Two outcomes that the host cannot tell apart. -/
def OutcomesAlike : Host.Outcome State Fault Refusal → Host.Outcome State Fault Refusal → Prop
  | .next s, .next t => State.Alike s t
  | .refused a, .refused b => a = b
  | _, _ => False

/-- The six commands that read the state words, those that NOT_SEEDED can refuse (R93, R95). -/
def readsState : Instr → Bool
  | .seed _ => false
  | .next => true
  | .f32co => true
  | .f32cc => true
  | .f64co => true
  | .f64cc => true
  | .jump => true
  | .reserved => false

/-- The state a refused command leaves: the response, the model's own mark, and nothing else changed (R99). -/
def refusedWith (e : ErrCode) (s : State) : State := { s with rsp := some ⟨e, 0#64⟩, errorMark := true }

/-- The state that NEXT and the scalers leave: one transition, one pulse of `step_o`, and a response without error that carries `d`;
nothing else changed (R61, R67). -/
def drawnWith (d : Word) (s : State) : State :=
  { s with words := transition s.words, stepPulses := s.stepPulses + 1, rsp := some ⟨.ok, d⟩ }

/-- A numerator that lies at a tie which `rne` rounds down to even: more significant bits than the format holds, the dropped bits
exactly one half, the kept part even (R79). -/
def tieRoundsDown (n p : Nat) : Prop :=
  p < bitlen n ∧ n % 2 ^ (bitlen n - p) = 2 ^ (bitlen n - p - 1) ∧ n / 2 ^ (bitlen n - p) % 2 = 0

/-- The number that a binary floating-point pattern stands for: 1 sign bit, `ebits` exponent bits with bias `bias`, `p - 1` fraction
bits; `none` for an infinity or a NaN (R9, R68). -/
def fpValue (p ebits bias x : Nat) : Option ℚ :=
  let e := x / 2 ^ (p - 1) % 2 ^ ebits
  let f := x % 2 ^ (p - 1)
  let sign : ℚ := if x / 2 ^ (p - 1 + ebits) % 2 = 1 then -1 else 1
  if e = 2 ^ ebits - 1 then none
  else if e = 0 then some (sign * f * 2 ^ ((1 : Int) - bias - (p - 1 : Nat)))
  else some (sign * (2 ^ (p - 1) + f : Nat) * 2 ^ ((e : Int) - bias - (p - 1 : Nat)))

/-- The exact number `n / 2^k` (R69 to R73). -/
def scaled (n k : Nat) : ℚ := (n : ℚ) / 2 ^ k

/-- The binary32 number in the low half of a response (R43, R68). -/
def value32 (d : Word) : Option ℚ := fpValue 24 8 127 (d.toNat % 2 ^ 32)

/-- The binary64 number of a response (R43, R68). -/
def value64 (d : Word) : Option ℚ := fpValue 53 11 1023 d.toNat

end Sys2Proof.Machine
end

