-- ==== Sys2Proof/Certificates/Slice0/Obligations.lean ====
section
/-! DEFINITION. The statements for the provers, each formalising what spec/ says of a command or of the whole machine. A statement about
a free value of Config holds for every value of it. `errorMark`, `stepPulses`, `now` and `inputs` are the model's own fields (NOTES.md,
log entries 3 to 6); a frame says that they too are kept. -/

open Sys2Proof Sys2Proof.Machine

/-! ## Encoding -/

/-- R46: decoding is a total function of the opcode, and execution is total: every command on every state yields exactly one next state
and one response (the step is a function, so it is one). -/
def Obligations.DecodeAndExecAreTotal : Prop :=
  (∀ x, decode ⟨0#3, x⟩ = .seed (seedLanes x) ∧ decode ⟨1#3, x⟩ = .next ∧ decode ⟨2#3, x⟩ = .f32co ∧ decode ⟨3#3, x⟩ = .f32cc
    ∧ decode ⟨4#3, x⟩ = .f64co ∧ decode ⟨5#3, x⟩ = .f64cc ∧ decode ⟨6#3, x⟩ = .jump ∧ decode ⟨7#3, x⟩ = .reserved)
  ∧ ∀ i s, ∃ t r, exec i s = .next t ∧ t.rsp = some r

/-- Words written out from R39 and R30 (opcode byte, then the seed bytes; the byte image is the model's, log entry 9) decode to the
commands they stand for. -/
def Obligations.WrittenWordsDecode : Prop :=
  decodeBytes (0b00000001#8 :: List.replicate 32 0#8) = .ok .next
  ∧ decodeBytes (0b00000010#8 :: List.replicate 32 0#8) = .ok .f32co
  ∧ decodeBytes (0b00000101#8 :: List.replicate 32 0#8) = .ok .f64cc
  ∧ decodeBytes (0b00000110#8 :: List.replicate 32 0xFF#8) = .ok .jump
  ∧ decodeBytes (0b00000111#8 :: List.replicate 32 0#8) = .ok .reserved
  ∧ decodeBytes (0b00000000#8 :: 0x80#8 :: List.replicate 31 0x01#8)
      = .ok (.seed #v[0x80, 1, 1, 1, 1, 1, 1, 1, 1, 1, 1, 1, 1, 1, 1, 1, 1, 1, 1, 1, 1, 1, 1, 1, 1, 1, 1, 1, 1, 1, 1, 1])

/-- Decoding what the encoder puts on the port gives the command back, with every seed; and so through the byte image (R30, R39, R40; the
byte image is the model's, log entry 9). -/
def Obligations.DecodeEncodeRoundTrip : Prop :=
  ∀ i : Instr, i.wellFormed = true → decode (encode i) = i ∧ decodeBytes (encodeBytes i) = .ok i

/-- Encoding what was decoded gives the port's value back, but for the lanes of `seed_i` that a format C opcode ignores (R30, R39, R40;
the zeros there are the encoder's choice). -/
def Obligations.EncodeDecodeRoundTrip : Prop :=
  ∀ c : Command, encode (decode c) = ⟨c.op, if c.op = 0#3 then c.seed else 0#256⟩

/-- A table word that the decoder reads as `i` is what the step accepts and performs from the fetch place (the byte image, the numbering
of its bits and the fetch place are the model's, log entries 6 and 9). -/
def Obligations.FetchedTableWordRuns : Prop :=
  ∀ (s : State) (nbits w : Nat) (i : Instr), decodeTableWord nbits w = some i →
    step (s.withFetchWord nbits w)
      = exec i { s with busy := true, rsp := none, waiting := none, inputs := s.inputs.tail, now := s.now + 1 }

/-- R40, R45: with any opcode but 000 no bit of `seed_i` is decoded, so no value of it can make a command illegal, and what an idle block
does with the command does not depend on it. -/
def Obligations.FormatCIgnoresSeedPort : Prop :=
  (∀ op x y, op ≠ 0#3 → decode ⟨op, x⟩ = decode ⟨op, y⟩) ∧ (∀ op x, decode ⟨op, x⟩ = .reserved ↔ op = 7#3)
  ∧ ∀ (s : State) op x y r rest, s.busy = false → s.waiting = none → op ≠ 0#3 →
      step { s with inputs := ⟨.low, some ⟨op, x⟩, r⟩ :: rest } = step { s with inputs := ⟨.low, some ⟨op, y⟩, r⟩ :: rest }

/-! ## The transaction rule -/

/-- A step of an idle block runs the decoded command (R24): the command that the port presents is accepted (BUSY is set, nothing waits, no
response is presented), the ports move on, and the outcome is exec of the command. -/
def Obligations.StepRunsPresentedCommand : Prop :=
  ∀ (s : State) (c : Command) (r : Bool) (rest : List Inputs),
    s.busy = false → s.waiting = none ∨ s.waiting = some c → s.inputs = ⟨.low, some c, r⟩ :: rest →
    step s = exec (decode c) { s with busy := true, rsp := none, waiting := none, inputs := rest, now := s.now + 1 }

/-- R15, R24, R96: while BUSY = 1 no command is accepted (a presented one waits), the response is held until `rsp_ready_i` is 1, and at that
moment it is taken and BUSY is cleared; nothing else changes. -/
def Obligations.ResponseHeldUntilTaken : Prop :=
  ∀ (s : State) (resp : Response) (i : Inputs) (rest : List Inputs),
    s.busy = true → s.rsp = some resp → s.inputs = i :: rest → i.rst = .low → s.waiting = none ∨ s.waiting = i.cmd →
    cmdReadyO s = false ∧ rspValidO s = true
    ∧ step s = .next (if i.rspReady then
          { s with busy := false, rsp := none, waiting := i.cmd, inputs := rest, now := s.now + 1 }
        else { s with waiting := i.cmd, inputs := rest, now := s.now + 1 })

/-- R105: an idle block changes nothing for as long as no command is presented (the model's own step number and the host's list move on). -/
def Obligations.IdleBlockKeepsState : Prop :=
  ∀ (s : State) (ready : Bool) (rest : List Inputs),
    s.Idle → (s.inputs = [] ∨ s.inputs = ⟨.low, none, ready⟩ :: rest) →
    step s = .next { s with inputs := s.inputs.tail, now := s.now + 1 }

/-- Log entries 7 and 13, after U8 and R115: a step refuses exactly when a waiting command is withdrawn or changed before it is accepted, in
whatever sample, also one with a reset, and never for another reason. -/
def Obligations.OnlyBrokenHandshakesRefused : Prop :=
  ∀ s : State, (∀ r, step s = .refused r → r = .handshakeBroken)
    ∧ (step s = .refused .handshakeBroken
        ↔ ∃ c, s.waiting = some c ∧ ∀ d, (port s).cmd = some d → decode d ≠ decode c)

/-- R24, R36: a script driven on the ports, two samples a command, gives the machine and the responses of the sequence of whole
transactions: after the first sample of command `k` the block presents response `k` of that sequence, one for each command, in order. (How
a script is driven is the model's, log entry 6.) -/
def Obligations.PortsRefineTransactions : Prop :=
  ∀ (is : List Instr) (s : State) (rest : List Inputs), s.Idle →
    ∃ t u rs, Host.Core.run Sys2Proof.core (2 * is.length) { s with inputs := is.flatMap commandSamples ++ rest } = .next t
      ∧ transactions is s = some (u, rs) ∧ rs.length = is.length
      ∧ (∀ k, k < is.length →
          ∃ v r, Host.Core.run Sys2Proof.core (2 * k + 1) { s with inputs := is.flatMap commandSamples ++ rest } = .next v
            ∧ rs[k]? = some r ∧ v.rsp = some r ∧ v.busy = true)
      ∧ t.Idle ∧ t.inputs = rest ∧ t.seeded = u.seeded ∧ t.words = u.words ∧ t.stepPulses = u.stepPulses
      ∧ t.errorMark = u.errorMark

/-! ## SEED -/

/-- R29: word `j` is made of bytes `8j` to `8j+7`, the first the most significant, in every state and for every seed. -/
def Obligations.SeedPacksBigEndian : Prop :=
  ∀ (m : Seed) (s : State), ∃ t, exec (.seed m) s = .next t ∧ ∀ j : Fin 4,
    (t.words.get j).toNat = ∑ k : Fin 8, m[8 * j.val + k.val].toNat * 2 ^ (8 * (7 - k.val))
    ∧ (t.words.get j).extractLsb' 56 8 = m[8 * j.val] ∧ (t.words.get j).extractLsb' 0 8 = m[8 * j.val + 7]

/-- R54, R51: SEED completes in every state: the packed words, SEEDED, the response 0/0; no transition, the accumulators and everything
else unchanged. -/
def Obligations.SeedEffectAndFrame : Prop :=
  ∀ (m : Seed) (s : State),
    exec (.seed m) s = .next { s with words := packSeed m, seeded := true, rsp := some ⟨.ok, 0#64⟩ }

/-- R53: each bit of the four words is the bit of `seed_i` that the normalizer's wiring names. -/
def Obligations.NormalizerReversesLanes : Prop :=
  ∀ (x : BitVec 256) (s : State), ∃ t, exec (decode ⟨0#3, x⟩) s = .next t ∧ ∀ (j : Fin 4) (m b : Fin 8),
    (t.words.get j).getLsbD (8 * (7 - m.val) + b.val) = x.getLsbD (8 * (8 * j.val + m.val) + b.val)

/-- R55: SEED is a bijection between seeds and states, with the inverse the rule gives; every state can be loaded with one SEED. -/
def Obligations.SeedingIsBijective : Prop :=
  Function.Bijective packSeed
  ∧ (∀ (m : Seed) (j : Fin 4) (k : Fin 8), m[8 * j.val + k.val] = ((packSeed m).get j).extractLsb' (8 * (7 - k.val)) 8)
  ∧ ∀ (w : Words) (s : State), ∃ m t, exec (.seed m) s = .next t ∧ t.words = w ∧ t.seeded = true

/-- R48: LOADSTATE expands to one SEED command that leaves the given words with SEEDED = 1, whatever the state was; the rule's own example,
as script text (blanks separate the words of a line, log entry 10). -/
def Obligations.LoadStateRestoresWords : Prop :=
  (∀ (w : Words) (s : State), ∃ m t, loadStateCommand w = .seed m ∧ exec (loadStateCommand w) s = .next t ∧ t.words = w
    ∧ t.seeded = true)
  ∧ parseLine "LOADSTATE 0x1 0x2 0x3 0x4".toList = some (.loadState ⟨1#64, 2#64, 3#64, 4#64⟩)
  ∧ parseLine "SEED 0000000000000001000000000000000200000000000000030000000000000004".toList
      = some (.command (loadStateCommand ⟨1#64, 2#64, 3#64, 4#64⟩))

/-! ## The output word and the transition -/

/-- R57: the output word as exact arithmetic on `s[1]` alone: each product is reduced modulo 2^64 separately, with the rotation by 7 between
them. The rule's worked example. -/
def Obligations.OutputWordFormula : Prop :=
  (∀ w : Words, ∃ a b, a = w.s1.toNat * 5 % 2 ^ 64 ∧ b = a * 2 ^ 7 % 2 ^ 64 + a / 2 ^ 57 ∧ (out w).toNat = b * 9 % 2 ^ 64)
  ∧ ∀ x y z, out ⟨x, 2#64, y, z⟩ = 0x2D00#64

/-- R60: the sequential transition in terms of the original words only, with the rule's own check. -/
def Obligations.TransitionClosedForm : Prop :=
  (∀ w : Words, transition w
    = ⟨xor64 (xor64 w.s0 w.s3) w.s1, xor64 (xor64 w.s1 w.s2) w.s0, xor64 (xor64 w.s2 w.s0) (shl64 w.s1 17),
        rotl64 (xor64 w.s3 w.s1) 45⟩)
  ∧ transition ⟨1#64, 2#64, 3#64, 4#64⟩ = ⟨0x7#64, 0x0#64, 0x40002#64, 0x0000C00000000000#64⟩

/-- R7, R63: the products by 5 and 9 are a shift and an addition, they wrap exactly above the bounds the rule names, and a rotation by `k`
moves bit `i - k` to bit `i`. -/
def Obligations.CoreArithmeticLaws : Prop :=
  (∀ x : Word, mul64 x 5#64 = x + shl64 x 2 ∧ mul64 x 9#64 = x + shl64 x 3
    ∧ ((mul64 x 5#64).toNat = x.toNat * 5 ↔ x.toNat ≤ 0x3333333333333333)
    ∧ ((mul64 x 9#64).toNat = x.toNat * 9 ↔ x.toNat ≤ 0x1C71C71C71C71C71))
  ∧ ∀ (x : Word) (k i : Nat), 0 < k → k < 64 → i < 64 → (rotl64 x k).getLsbD i = x.getLsbD ((i + 64 - k) % 64)

/-- R64: the transition is linear and a bijection; the output word is not linear. -/
def Obligations.TransitionIsLinearBijection : Prop :=
  (∀ a b : Words, transition (a.xor b) = (transition a).xor (transition b)) ∧ Function.Bijective transition
  ∧ ∃ a b : Words, out (a.xor b) ≠ out a ^^^ out b

/-- R62: the all-zero state is a fixed point with output 0, no other state maps to it, and NEXT on it is performed without error. -/
def Obligations.ZeroIsTheOnlyPreimageOfZero : Prop :=
  out Words.zero = 0#64 ∧ transition Words.zero = Words.zero ∧ (∀ w, transition w = Words.zero → w = Words.zero)
  ∧ ∀ s : State, s.seeded = true → s.words = Words.zero →
      ∃ t, exec .next s = .next t ∧ t.words = Words.zero ∧ t.rsp = some ⟨.ok, 0#64⟩

/-- R61: NEXT. Seeded: the response is the output word of the state before the transition, the state advances once, nothing else changes.
Unseeded: NOT_SEEDED and no effect. With `s[1]` = 0 the word is 0, and the all-zero state stays so. The rule's worked example. -/
def Obligations.NextEffectAndFrame : Prop :=
  (∀ x, decode ⟨0b001#3, x⟩ = .next)
  ∧ (∀ s : State, s.seeded = true → exec .next s = .next (drawnWith (out s.words) s))
  ∧ (∀ s : State, s.seeded = false → exec .next s = .next (refusedWith .notSeeded s))
  ∧ (∀ w : Words, w.s1 = 0#64 → out w = 0#64) ∧ transition Words.zero = Words.zero
  ∧ out ⟨1#64, 2#64, 3#64, 4#64⟩ = 0x0000000000002D00#64
  ∧ transition ⟨1#64, 2#64, 3#64, 4#64⟩ = ⟨0x7#64, 0x0#64, 0x40002#64, 0x0000C00000000000#64⟩

/-- R66: after N NEXT commands from a seeded state the state is the transition applied N times, the responses are the output words of the
states passed through, and `step_o` has pulsed N times. -/
def Obligations.NextSequence : Prop :=
  ∀ (n : Nat) (s : State), s.seeded = true →
    ∃ t, transactions (List.replicate n .next) s
        = some (t, (List.range n).map fun k => ⟨.ok, out (transition^[k] s.words)⟩)
      ∧ t.words = transition^[n] s.words ∧ t.stepPulses = s.stepPulses + n

/-! ## The scalers -/

/-- R8: `rne` leaves what fits, and otherwise gives the nearest multiple of the unit of the kept bits, a tie going to the even one; the
result has at most `p` significant bits or is the next power of two. -/
def Obligations.RneRoundsToNearestEven : Prop :=
  ∀ n p : Nat, 1 ≤ p → (bitlen n ≤ p → rne n p = n) ∧ (p < bitlen n →
    ∃ u q, u = 2 ^ (bitlen n - p) ∧ rne n p = q * u ∧ 2 * (rne n p - n) ≤ u ∧ 2 * (n - rne n p) ≤ u
      ∧ ((2 * (rne n p - n) = u ∨ 2 * (n - rne n p) = u) → q % 2 = 0) ∧ (q < 2 ^ p ∨ rne n p = 2 ^ bitlen n))

/-- R9: for both formats, `fpenc` of an `m` with at most `p` significant bits and `m ≤ 2^k` stands for exactly `m / 2^k`, with sign 0; for
`m` = 0 it is the pattern 0, and if `m` is not 0 its biased exponent lies between `bias - k` and `bias`. The premise `k < bias` holds in the four uses. -/
def Obligations.FpencStandsForTheQuotient : Prop :=
  (∀ m k : Nat, m ≤ 2 ^ k → k < 127 → 2 ^ (bitlen m - 24) ∣ m →
    fpValue 24 8 127 (fpenc m k 24 8 127).toNat = some (scaled m k) ∧ (m = 0 → (fpenc m k 24 8 127).toNat = 0)
    ∧ (m ≠ 0 → 127 - k ≤ (fpenc m k 24 8 127).toNat / 2 ^ 23 ∧ (fpenc m k 24 8 127).toNat / 2 ^ 23 ≤ 127))
  ∧ ∀ m k : Nat, m ≤ 2 ^ k → k < 1023 → 2 ^ (bitlen m - 53) ∣ m →
    fpValue 53 11 1023 (fpenc m k 53 11 1023).toNat = some (scaled m k) ∧ (m = 0 → (fpenc m k 53 11 1023).toNat = 0)
    ∧ (m ≠ 0 → 1023 - k ≤ (fpenc m k 53 11 1023).toNat / 2 ^ 52 ∧ (fpenc m k 53 11 1023).toNat / 2 ^ 52 ≤ 1023)

/-- R67: each scaler does to a seeded machine what NEXT does, but for the data of the response, which is a function of the one raw word. -/
def Obligations.ScalersDrawOneWordLikeNext : Prop :=
  ∀ i ∈ [Instr.f32co, .f32cc, .f64co, .f64cc], ∃ f : Word → Word, ∀ s : State, s.seeded = true →
    exec i s = .next (drawnWith (f (out s.words)) s) ∧ exec .next s = .next (drawnWith (out s.words) s)

/-- R70: F32CO. The result is the value `n / 2^24` for the high 24 bits `n` of the raw word, as a binary32 pattern with sign 0 in the low half;
each of the `2^24` results comes from exactly the raw words with those high bits; the corner cases and the worked example of the rule;
unseeded, NOT_SEEDED. -/
def Obligations.F32COResult : Prop :=
  (∀ x, decode ⟨0b010#3, x⟩ = .f32co)
  ∧ (∀ s : State, s.seeded = false → exec .f32co s = .next (refusedWith .notSeeded s))
  ∧ (∀ s : State, s.seeded = true → ∃ d, exec .f32co s = .next (drawnWith d s) ∧ d.toNat < 2 ^ 31
      ∧ value32 d = some (scaled ((out s.words).toNat / 2 ^ 40) 24)
      ∧ ((out s.words).toNat < 2 ^ 40 → d = 0#64) ∧ (0xFFFFFF0000000000 ≤ (out s.words).toNat → d = 0x3F7FFFFF#64)
      ∧ d ≠ 0x3F800000#64)
  ∧ (∀ (w : Word) (n : Nat), n < 2 ^ 24 → (value32 (scaleF32CO w) = some (scaled n 24) ↔ w.toNat / 2 ^ 40 = n))
  ∧ scaleF32CO 0xCB61F88F25BC5234#64 = 0x000000003F4B61F8#64

/-- R71: F32CC. With `n` the high 32 bits of the raw word the result is the value `rne(n, 24) / 2^32`; it is +0.0 exactly for `n = 0` and 1.0
exactly for `n ≥ 0xFFFFFF80`; the rule's other corner cases and worked example; unseeded, NOT_SEEDED. -/
def Obligations.F32CCResult : Prop :=
  (∀ x, decode ⟨0b011#3, x⟩ = .f32cc)
  ∧ (∀ s : State, s.seeded = false → exec .f32cc s = .next (refusedWith .notSeeded s))
  ∧ (∀ s : State, s.seeded = true → ∃ d, exec .f32cc s = .next (drawnWith d s) ∧ d.toNat < 2 ^ 31
      ∧ value32 d = some (scaled (rne ((out s.words).toNat / 2 ^ 32) 24) 32)
      ∧ ((out s.words).toNat < 2 ^ 32 ↔ d = 0#64) ∧ (0xFFFFFF8000000000 ≤ (out s.words).toNat ↔ d = 0x3F800000#64)
      ∧ ((out s.words).toNat / 2 ^ 32 = 0xFFFFFF7F → d = 0x3F7FFFFF#64)
      ∧ ((out s.words).toNat / 2 ^ 32 < 2 ^ 24 → value32 d = some (scaled ((out s.words).toNat / 2 ^ 32) 32)))
  ∧ rne 0x01000001 24 = 0x01000000 ∧ rne 0x01000003 24 = 0x01000004 ∧ rne 0x34CB61F8 24 = 0x34CB6200
  ∧ scaleF32CC scalerRounding 0x34CB61F88F25BB9C#64 = 0x000000003E532D88#64

/-- R72: F64CO. The result is the value `n / 2^53` for the high 53 bits `n` of the raw word, as a binary64 pattern with sign 0; each of
the `2^53` results comes from exactly the raw words with those high bits; corner cases and worked example; unseeded, NOT_SEEDED. -/
def Obligations.F64COResult : Prop :=
  (∀ x, decode ⟨0b100#3, x⟩ = .f64co)
  ∧ (∀ s : State, s.seeded = false → exec .f64co s = .next (refusedWith .notSeeded s))
  ∧ (∀ s : State, s.seeded = true → ∃ d, exec .f64co s = .next (drawnWith d s) ∧ d.toNat < 2 ^ 63
      ∧ value64 d = some (scaled ((out s.words).toNat / 2 ^ 11) 53)
      ∧ ((out s.words).toNat < 2 ^ 11 → d = 0#64) ∧ (0xFFFFFFFFFFFFF800 ≤ (out s.words).toNat → d = 0x3FEFFFFFFFFFFFFF#64)
      ∧ d ≠ 0x3FF0000000000000#64)
  ∧ (∀ (w : Word) (n : Nat), n < 2 ^ 53 → (value64 (scaleF64CO w) = some (scaled n 53) ↔ w.toNat / 2 ^ 11 = n))
  ∧ scaleF64CO 0x3B002D5A891E1D0E#64 = 0x3FCD8016AD448F0C#64

/-- R73: F64CC. The result is the value `rne(w, 53) / 2^64` of the raw word `w`; it is +0.0 exactly for `w = 0` and 1.0 exactly for
`w ≥ 0xFFFFFFFFFFFFFC00`; the rule's other corner cases and worked example; unseeded, NOT_SEEDED. -/
def Obligations.F64CCResult : Prop :=
  (∀ x, decode ⟨0b101#3, x⟩ = .f64cc)
  ∧ (∀ s : State, s.seeded = false → exec .f64cc s = .next (refusedWith .notSeeded s))
  ∧ (∀ s : State, s.seeded = true → ∃ d, exec .f64cc s = .next (drawnWith d s) ∧ d.toNat < 2 ^ 63
      ∧ value64 d = some (scaled (rne (out s.words).toNat 53) 64)
      ∧ (out s.words = 0#64 ↔ d = 0#64) ∧ (0xFFFFFFFFFFFFFC00 ≤ (out s.words).toNat ↔ d = 0x3FF0000000000000#64)
      ∧ ((out s.words).toNat < 2 ^ 53 → value64 d = some (scaled (out s.words).toNat 64)))
  ∧ scaleF64CC scalerRounding 1#64 = 0x3BF0000000000000#64
  ∧ scaleF64CC scalerRounding 0xFFFFFFFFFFFFFBFF#64 = 0x3FEFFFFFFFFFFFFF#64
  ∧ scaleF64CC scalerRounding 0x8000000000000400#64 = 0x3FE0000000000000#64
  ∧ scaleF64CC scalerRounding 0x8000000000000C00#64 = 0x3FE0000000000002#64
  ∧ scaleF64CC scalerRounding 0x8000000000000401#64 = 0x3FE0000000000001#64
  ∧ scaleF64CC scalerRounding 0x4407CB349C43DBD7#64 = 0x3FD101F2CD2710F7#64

/-- R74: on every seeded state the closed-open scalers answer a number in [0,1) and the closed-closed ones a number in [0,1]; 0.0 and 1.0 are each
reached from some raw word by the closed-closed ones. -/
def Obligations.ScalersStayInRange : Prop :=
  (∀ s : State, s.seeded = true →
    (∃ d v, exec .f32co s = .next (drawnWith d s) ∧ value32 d = some v ∧ 0 ≤ v ∧ v < 1)
    ∧ (∃ d v, exec .f64co s = .next (drawnWith d s) ∧ value64 d = some v ∧ 0 ≤ v ∧ v < 1)
    ∧ (∃ d v, exec .f32cc s = .next (drawnWith d s) ∧ value32 d = some v ∧ 0 ≤ v ∧ v ≤ 1)
    ∧ (∃ d v, exec .f64cc s = .next (drawnWith d s) ∧ value64 d = some v ∧ 0 ≤ v ∧ v ≤ 1))
  ∧ (∃ w, value32 (scaleF32CC scalerRounding w) = some 0) ∧ (∃ w, value32 (scaleF32CC scalerRounding w) = some 1)
  ∧ (∃ w, value64 (scaleF64CC scalerRounding w) = some 0) ∧ (∃ w, value64 (scaleF64CC scalerRounding w) = some 1)

/-- R75 with R43: every result is +0.0 or a positive normal number not greater than 1.0: the pattern is 0, or its exponent field (with the
sign bit, which is 0) lies strictly between 0 and that of 1.0, or it is 1.0; a float32 leaves the upper half zero. -/
def Obligations.ScalerResultsAreZeroOrNormal : Prop :=
  ∀ w : Word,
    (∀ d ∈ [scaleF32CO w, scaleF32CC scalerRounding w],
      d = 0#64 ∨ d = 0x3F800000#64 ∨ (1 ≤ d.toNat / 2 ^ 23 ∧ d.toNat / 2 ^ 23 < 127))
    ∧ ∀ d ∈ [scaleF64CO w, scaleF64CC scalerRounding w],
      d = 0#64 ∨ d = 0x3FF0000000000000#64 ∨ (1 ≤ d.toNat / 2 ^ 52 ∧ d.toNat / 2 ^ 52 < 1023)

/-- R69: the stepwise definition (round the numerator, round the divisor, round their quotient) gives what the four scalers compute with
integers. The quotient's rounding is the model's `fpquot`. -/
def Obligations.StepwiseDivisionReduces : Prop :=
  ∀ w : Word,
    scaleF32CO w = (fpquot (rne (w.toNat / 2 ^ 40) 24) (rne (2 ^ 24) 24) 24 8 127).setWidth 64
    ∧ scaleF32CC .stepwise w = (fpquot (rne (w.toNat / 2 ^ 32) 24) (rne (2 ^ 32 - 1) 24) 24 8 127).setWidth 64
    ∧ scaleF64CO w = (fpquot (rne (w.toNat / 2 ^ 11) 53) (rne (2 ^ 53) 53) 53 11 1023).setWidth 64
    ∧ scaleF64CC .stepwise w = (fpquot (rne w.toNat 53) (rne (2 ^ 64 - 1) 53) 53 11 1023).setWidth 64

/-- R79: the two readings of the division differ exactly for the numerators at a tie that `rne` rounds down to even, and there the exact
quotient is one unit in the last place more. The quotient's rounding is the model's `fpquot`. -/
def Obligations.RoundingReadingsDifferAtTies : Prop :=
  ∀ w : Word,
    (tieRoundsDown (w.toNat / 2 ^ 32) 24 → scaleF32CC .exactQuotient w = scaleF32CC .stepwise w + 1#64)
    ∧ (¬tieRoundsDown (w.toNat / 2 ^ 32) 24 → scaleF32CC .exactQuotient w = scaleF32CC .stepwise w)
    ∧ (tieRoundsDown w.toNat 53 → scaleF64CC .exactQuotient w = scaleF64CC .stepwise w + 1#64)
    ∧ (¬tieRoundsDown w.toNat 53 → scaleF64CC .exactQuotient w = scaleF64CC .stepwise w)

/-! ## JUMP -/

/-- R80: the table, its reading as one 256-bit number, and its set bits by word. -/
def Obligations.JumpTableContents : Prop :=
  jumpPoly = #v[0x180EC6D33CFD0ABA#64, 0xD5A61266F0C9392C#64, 0xA9582618E03FC9AA#64, 0x39ABDC4529B1661C#64]
  ∧ (∀ k : BitVec 8, jumpBit k
      = Nat.testBit 0x39ABDC4529B1661CA9582618E03FC9AAD5A61266F0C9392C180EC6D33CFD0ABA k.toNat)
  ∧ (List.range 4).map (fun i => ((List.range 64).filter fun b => jumpBit (BitVec.ofNat 8 (64 * i + b))).length) = [32, 30, 29, 31]

/-- R82: JUMP leaves the exclusive or of the states after `k` transitions over exactly those `k` whose table bit is 1, words in the listed order
and bits from the least significant. -/
def Obligations.JumpSumsTheIterates : Prop :=
  ∀ s : State, s.seeded = true → ∃ t, exec .jump s = .next t ∧ t.words =
    ((List.range 256).filter
      (Nat.testBit 0x39ABDC4529B1661CA9582618E03FC9AAD5A61266F0C9392C180EC6D33CFD0ABA)).foldl
      (fun a k => a.xor (transition^[k] s.words)) Words.zero

/-- R88: JUMP unseeded is refused with NOT_SEEDED and nothing changed, the accumulators included; seeded it completes with response 0/0, SEEDED
stays 1, and everything but the words, the jump engine's scratch (unspecified after it, R18) and the count of pulses is unchanged. -/
def Obligations.JumpEffectAndFrame : Prop :=
  (∀ s : State, s.seeded = false → exec .jump s = .next (refusedWith .notSeeded s))
  ∧ ∀ s : State, s.seeded = true → ∃ t, exec .jump s = .next t ∧ t.rsp = some ⟨.ok, 0#64⟩ ∧ t.seeded = true
      ∧ t.busy = s.busy ∧ t.waiting = s.waiting ∧ t.inputs = s.inputs ∧ t.errorMark = s.errorMark ∧ t.now = s.now

/-- R85: one JUMP performs exactly 256 transitions, whatever the state; the table has 122 set bits. -/
def Obligations.JumpMakes256Transitions : Prop :=
  (∀ s : State, s.seeded = true → ∃ t, exec .jump s = .next t ∧ t.stepPulses = s.stepPulses + 256)
  ∧ ((List.range 256).filter fun k => jumpBit (BitVec.ofNat 8 k)).length = 122

/-- R89: JUMP acts on the state words by a linear function, which fixes the all-zero state and commutes with the transition. -/
def Obligations.JumpIsLinearAndCommutes : Prop :=
  ∃ f : Words → Words, (∀ s : State, s.seeded = true → ∃ t, exec .jump s = .next t ∧ t.words = f s.words)
    ∧ (∀ a b, f (a.xor b) = (f a).xor (f b)) ∧ f Words.zero = Words.zero ∧ ∀ w, f (transition w) = transition (f w)

/-- R86: the state after JUMP is the state after 2^128 transitions. -/
def Obligations.JumpIsTwoPow128Transitions : Prop :=
  ∀ s : State, s.seeded = true → ∃ t, exec .jump s = .next t ∧ t.words = transition^[2 ^ 128] s.words

/-- R89: JUMP is a bijection on states. -/
def Obligations.JumpIsBijective : Prop :=
  ∃ f : Words → Words, (∀ s : State, s.seeded = true → ∃ t, exec .jump s = .next t ∧ t.words = f s.words) ∧ Function.Bijective f

/-! ## Errors, reset, the whole machine -/

/-- R93: the code of a response names its cause: 1 for the reserved opcode only, 2 for a command that reads the state while SEEDED = 0 only, 3
never; an error response has data 0. -/
def Obligations.ErrorCodesNameTheirCause : Prop :=
  ∀ (i : Instr) (s : State), ∃ t r, exec i s = .next t ∧ t.rsp = some r ∧ rspErrO t = errBits r.err
    ∧ (rspErrO t = 1#2 ↔ i = .reserved) ∧ (rspErrO t = 2#2 ↔ readsState i = true ∧ s.seeded = false) ∧ rspErrO t ≠ 3#2
    ∧ (rspErrO t ≠ 0#2 → rspDataO t = 0#64)

/-- R99: what an error does, in full: the response carries the code and data 0; the words, SEEDED, the accumulators and the index keep their
values (as does every other field but the model's own permanent mark, R101). -/
def Obligations.ErrorsChangeNothing : Prop :=
  ∀ (i : Instr) (s : State), ∃ t r, exec i s = .next t ∧ t.rsp = some r ∧ (r.err ≠ .ok → t = refusedWith r.err s)

/-- R94: the reserved opcode is refused with ILLEGAL_CMD, whatever the value of SEEDED, and nothing else changes. -/
def Obligations.ReservedOpcodeIsIllegal : Prop :=
  ∀ (x : BitVec 256) (s : State), exec (decode ⟨0b111#3, x⟩) s = .next (refusedWith .illegalCmd s)

/-- R95: while SEEDED = 0 each of the six commands that read the state is refused with NOT_SEEDED and changes nothing; SEED never raises it, nor does
the reserved opcode, and once SEEDED is 1, which only a reset ends, no command does. -/
def Obligations.UnseededReadersRefused : Prop :=
  (∀ (i : Instr) (s : State), readsState i = true → s.seeded = false → exec i s = .next (refusedWith .notSeeded s))
  ∧ (∀ (i : Instr) (s : State), readsState i = false ∨ s.seeded = true →
      ∃ t r, exec i s = .next t ∧ t.rsp = some r ∧ r.err ≠ .notSeeded)
  ∧ ∀ s t : State, step s = .next t → s.seeded = true → (port s).rst = .low → t.seeded = true

/-- R92: none of the seven commands can fail on a seeded machine, for any state and any seed. -/
def Obligations.SeededCommandsNeverFail : Prop :=
  ∀ (i : Instr) (s : State), i ≠ .reserved → s.seeded = true →
    ∃ t d, exec i s = .next t ∧ t.rsp = some ⟨.ok, d⟩ ∧ t.seeded = true ∧ t.errorMark = s.errorMark

/-- R12, R104: each command makes the number of transitions its row names: 0 for SEED, the reserved opcode and a refused command, 1 for NEXT and
the scalers, 256 for JUMP. -/
def Obligations.TransitionCounts : Prop :=
  ∀ (i : Instr) (s : State), ∃ t n, exec i s = .next t ∧ t.stepPulses = s.stepPulses + n
    ∧ n = if s.seeded = false then 0 else if i = .jump then 256 else if readsState i = true then 1 else 0

/-- R14: SEEDED becomes 1 only by an accepted SEED, and only a reset takes it away; after a step with reset it is 0. -/
def Obligations.OnlyResetClearsSeeded : Prop :=
  ∀ s t : State, step s = .next t →
    ((port s).rst = .low → s.seeded = true → t.seeded = true)
    ∧ (s.seeded = false → t.seeded = true → s.busy = false ∧ ∃ c m, (port s).cmd = some c ∧ decode c = .seed m)
    ∧ ((port s).rst ≠ .low → t.seeded = false)

/-- R107, R108: a reset, at any moment (idle, with a response waiting, or inside a command), leaves SEEDED, BUSY and the response cleared, and
abandons what was in flight; `step_o` has pulsed for the transitions that an abandoned command made before it, and not otherwise (R104).
`cmd_ready_o` is 0 while `rst` is asserted (R107). What the registers then hold is unspecified. These clauses are the model's: the samples (log
entry 6); `cmd_ready_o` is not BUSY in a sample whose reset comes inside it (log entry 8, DEDUCED); a command that is presented and not accepted
goes on waiting through the reset (log entry 12, DEDUCED); the premise that the handshake is kept, without which the step is refused (log
entry 13, DESIGN CHOICE). -/
def Obligations.ResetAbandonsEverything : Prop :=
  ∀ s : State, (port s).rst ≠ .low → handshakeBroken s = false →
    ∃ t, step s = .next t ∧ t.seeded = false ∧ t.busy = false ∧ t.rsp = none ∧ t.errorMark = s.errorMark ∧ t.inputs = s.inputs.tail
      ∧ ((port s).rst = .high → t.stepPulses = s.stepPulses ∧ cmdReadyO s = false ∧ t.waiting = (port s).cmd)
      ∧ ∀ k, (port s).rst = .during k → cmdReadyO s = !s.busy
        ∧ (∀ c, s.busy = false → (port s).cmd = some c →
            t.stepPulses = s.stepPulses + min k (transitions (decode c) s) ∧ t.waiting = none)
        ∧ (s.busy = true ∨ (port s).cmd = none → t.stepPulses = s.stepPulses ∧ t.waiting = (port s).cmd)

/-- R26: the flags and the output ports after reset, for every content of the registers that the rule leaves unspecified; State.reset is one of
these machines (its zeros are the model's choice, log entries 1 and 2). -/
def Obligations.PowerOnState : Prop :=
  (∀ (w a : Words) (j : BitVec 8), (State.powerOn w a j).seeded = false ∧ (State.powerOn w a j).busy = false
    ∧ cmdReadyO (State.powerOn w a j) = true ∧ rspValidO (State.powerOn w a j) = false ∧ seededO (State.powerOn w a j) = false)
  ∧ ∃ w a j, State.reset = State.powerOn w a j

/-- R25: while SEEDED = 1 and BUSY = 0 bit `64i + b` of `state_o` is bit `b` of word `i` (also in the sample of a reset, where that is the
model's choice, log entry 14). -/
def Obligations.StateOutputShowsTheWords : Prop :=
  ∀ s : State, s.seeded = true → s.busy = false →
    ∀ (i : Fin 4) (b : Fin 64), (stateO s).getLsbD (64 * i.val + b.val) = (s.words.get i).getLsbD b.val

/-- R119, R52: on the seeded all-zero state NEXT and the scalers answer 0, JUMP changes nothing, and no step but an accepted SEED or a reset ends
that condition. -/
def Obligations.ZeroStateIsAbsorbing : Prop :=
  (∀ (i : Instr) (s : State), readsState i = true → s.seeded = true → s.words = Words.zero →
    ∃ t, exec i s = .next t ∧ t.words = Words.zero ∧ t.rsp = some ⟨.ok, 0#64⟩)
  ∧ ∀ s t : State, step s = .next t → s.seeded = true → s.words = Words.zero → (port s).rst = .low →
      (∀ c m, (port s).cmd = some c → decode c = .seed m → s.busy = true) → t.words = Words.zero ∧ t.seeded = true

/-- R111: a seeded state that is not all zero never becomes all zero but by an accepted SEED of 32 zero bytes. -/
def Obligations.NonzeroStateStaysNonzero : Prop :=
  ∀ s t : State, step s = .next t → s.seeded = true → s.words ≠ Words.zero → t.seeded = true → t.words = Words.zero →
    s.busy = false ∧ ∃ c, (port s).cmd = some c ∧ decode c = .seed (Vector.replicate 32 0#8)

/-- The invariant holds at reset, and for every content of the registers without a reset value. -/
def Obligations.PowerOnSatisfiesInv : Prop :=
  State.reset.Inv ∧ ∀ (w a : Words) (j : BitVec 8), (State.powerOn w a j).Inv

/-- Every step keeps the invariant: between two steps BUSY is 1 exactly while a response is presented (the model's choice, log entry 6: a step
performs a command whole, where R15 has BUSY = 1 from the acceptance, before there is a response); an error response has data 0
(R93) and has set the model's permanent mark (log entry 4); NOT_SEEDED stands only while SEEDED = 0 (R95), and a response without error only
while SEEDED = 1. -/
def Obligations.StepKeepsInv : Prop :=
  ∀ s t : State, s.Inv → step s = .next t → t.Inv

/-- R18, R26, R36: what the spec leaves without a value can never be observed: two machines that differ only in the accumulators, the index, the
model's own counts and, while SEEDED = 0, the state words, stay so under every step, pulse `step_o` alike in it (R104), refuse alike, and
show the same at every output port wherever the spec gives the port a value (R23 to R26). In particular no value chosen for reset (log entries 1
and 2) and no free value of the registers can show. -/
def Obligations.UnspecifiedStateNeverShows : Prop :=
  ∀ s t : State, s.Alike t → OutcomesAlike (step s) (step t)
    ∧ (∀ s' t', step s = .next s' → step t = .next t' → stepO s s' = stepO t t')
    ∧ cmdReadyO s = cmdReadyO t ∧ rspValidO s = rspValidO t ∧ seededO s = seededO t
    ∧ (rspValidO s = true → rspErrO s = rspErrO t ∧ rspDataO s = rspDataO t)
    ∧ (s.seeded = true → s.busy = false → stateO s = stateO t)

/-- R56: after a SEED the responses to any sequence of inputs depend only on the seed and that sequence: two idle machines that differ in anything else
and are driven alike, starting with the same SEED, cannot be told apart after any number of steps. -/
def Obligations.SeedDeterminesEverything : Prop :=
  ∀ (m : Seed) (ready : Bool) (rest : List Inputs) (s t : State) (n : Nat), s.Idle → t.Idle →
    OutcomesAlike
      (Host.Core.run Sys2Proof.core (n + 1) { s with inputs := ⟨.low, some ⟨0#3, seedPort m⟩, ready⟩ :: rest })
      (Host.Core.run Sys2Proof.core (n + 1) { t with inputs := ⟨.low, some ⟨0#3, seedPort m⟩, ready⟩ :: rest })

/-- The model's choice throughout: a command `c` presented in a reset, where nothing is accepted (R107), stays under the handshake rule of R115 and
U8 (log entry 12, DEDUCED). If the next sample withdraws or changes it, the step is refused, also where that sample has a reset in it (log
entry 13, DESIGN CHOICE); if the next sample holds it with `rst` released, it is accepted and performed (log entry 12), on the unseeded machine
that the reset leaves. What a presented command is and how the samples follow each other is the model's too (log entries 6 and 7). -/
def Obligations.CommandPresentedInResetIsHeld : Prop :=
  ∀ (s : State) (c : Command) (ready : Bool) (i : Inputs) (rest : List Inputs),
    s.waiting = none ∨ s.waiting = some c → s.inputs = ⟨.high, some c, ready⟩ :: i :: rest →
    ∃ t, step s = .next t ∧ t.seeded = false ∧ t.busy = false ∧ t.rsp = none
      ∧ ((∀ d, i.cmd = some d → decode d ≠ decode c) → step t = .refused .handshakeBroken)
      ∧ (i.cmd = some c → i.rst = .low →
          step t = exec (decode c) { t with busy := true, waiting := none, inputs := rest, now := t.now + 1 })
end

