-- ==== Sys2Proof/Laws/State.lean ====
section
/-! SUPPORT. What each state operation does to each field of State: one lemma a field, true by rfl. -/

namespace Sys2Proof.Machine

variable (s : State)

@[simp] theorem setSeeded_words : (setSeeded s).words = s.words := rfl
@[simp] theorem setSeeded_seeded : (setSeeded s).seeded = true := rfl
@[simp] theorem setSeeded_busy : (setSeeded s).busy = s.busy := rfl
@[simp] theorem setSeeded_acc : (setSeeded s).acc = s.acc := rfl
@[simp] theorem setSeeded_jidx : (setSeeded s).jidx = s.jidx := rfl
@[simp] theorem setSeeded_rsp : (setSeeded s).rsp = s.rsp := rfl
@[simp] theorem setSeeded_waiting : (setSeeded s).waiting = s.waiting := rfl
@[simp] theorem setSeeded_inputs : (setSeeded s).inputs = s.inputs := rfl
@[simp] theorem setSeeded_stepPulses : (setSeeded s).stepPulses = s.stepPulses := rfl
@[simp] theorem setSeeded_errorMark : (setSeeded s).errorMark = s.errorMark := rfl
@[simp] theorem setSeeded_now : (setSeeded s).now = s.now := rfl

@[simp] theorem clearSeeded_words : (clearSeeded s).words = s.words := rfl
@[simp] theorem clearSeeded_seeded : (clearSeeded s).seeded = false := rfl
@[simp] theorem clearSeeded_busy : (clearSeeded s).busy = s.busy := rfl
@[simp] theorem clearSeeded_acc : (clearSeeded s).acc = s.acc := rfl
@[simp] theorem clearSeeded_jidx : (clearSeeded s).jidx = s.jidx := rfl
@[simp] theorem clearSeeded_rsp : (clearSeeded s).rsp = s.rsp := rfl
@[simp] theorem clearSeeded_waiting : (clearSeeded s).waiting = s.waiting := rfl
@[simp] theorem clearSeeded_inputs : (clearSeeded s).inputs = s.inputs := rfl
@[simp] theorem clearSeeded_stepPulses : (clearSeeded s).stepPulses = s.stepPulses := rfl
@[simp] theorem clearSeeded_errorMark : (clearSeeded s).errorMark = s.errorMark := rfl
@[simp] theorem clearSeeded_now : (clearSeeded s).now = s.now := rfl

@[simp] theorem setBusy_words : (setBusy s).words = s.words := rfl
@[simp] theorem setBusy_seeded : (setBusy s).seeded = s.seeded := rfl
@[simp] theorem setBusy_busy : (setBusy s).busy = true := rfl
@[simp] theorem setBusy_acc : (setBusy s).acc = s.acc := rfl
@[simp] theorem setBusy_jidx : (setBusy s).jidx = s.jidx := rfl
@[simp] theorem setBusy_rsp : (setBusy s).rsp = s.rsp := rfl
@[simp] theorem setBusy_waiting : (setBusy s).waiting = s.waiting := rfl
@[simp] theorem setBusy_inputs : (setBusy s).inputs = s.inputs := rfl
@[simp] theorem setBusy_stepPulses : (setBusy s).stepPulses = s.stepPulses := rfl
@[simp] theorem setBusy_errorMark : (setBusy s).errorMark = s.errorMark := rfl
@[simp] theorem setBusy_now : (setBusy s).now = s.now := rfl

@[simp] theorem clearBusy_words : (clearBusy s).words = s.words := rfl
@[simp] theorem clearBusy_seeded : (clearBusy s).seeded = s.seeded := rfl
@[simp] theorem clearBusy_busy : (clearBusy s).busy = false := rfl
@[simp] theorem clearBusy_acc : (clearBusy s).acc = s.acc := rfl
@[simp] theorem clearBusy_jidx : (clearBusy s).jidx = s.jidx := rfl
@[simp] theorem clearBusy_rsp : (clearBusy s).rsp = s.rsp := rfl
@[simp] theorem clearBusy_waiting : (clearBusy s).waiting = s.waiting := rfl
@[simp] theorem clearBusy_inputs : (clearBusy s).inputs = s.inputs := rfl
@[simp] theorem clearBusy_stepPulses : (clearBusy s).stepPulses = s.stepPulses := rfl
@[simp] theorem clearBusy_errorMark : (clearBusy s).errorMark = s.errorMark := rfl
@[simp] theorem clearBusy_now : (clearBusy s).now = s.now := rfl

@[simp] theorem transit_words : (transit s).words = transition s.words := rfl
@[simp] theorem transit_seeded : (transit s).seeded = s.seeded := rfl
@[simp] theorem transit_busy : (transit s).busy = s.busy := rfl
@[simp] theorem transit_acc : (transit s).acc = s.acc := rfl
@[simp] theorem transit_jidx : (transit s).jidx = s.jidx := rfl
@[simp] theorem transit_rsp : (transit s).rsp = s.rsp := rfl
@[simp] theorem transit_waiting : (transit s).waiting = s.waiting := rfl
@[simp] theorem transit_inputs : (transit s).inputs = s.inputs := rfl
@[simp] theorem transit_stepPulses : (transit s).stepPulses = s.stepPulses + 1 := rfl
@[simp] theorem transit_errorMark : (transit s).errorMark = s.errorMark := rfl
@[simp] theorem transit_now : (transit s).now = s.now := rfl

@[simp] theorem loadWords_words (w : Words) : (loadWords w s).words = w := rfl
@[simp] theorem loadWords_seeded (w : Words) : (loadWords w s).seeded = s.seeded := rfl
@[simp] theorem loadWords_busy (w : Words) : (loadWords w s).busy = s.busy := rfl
@[simp] theorem loadWords_acc (w : Words) : (loadWords w s).acc = s.acc := rfl
@[simp] theorem loadWords_jidx (w : Words) : (loadWords w s).jidx = s.jidx := rfl
@[simp] theorem loadWords_rsp (w : Words) : (loadWords w s).rsp = s.rsp := rfl
@[simp] theorem loadWords_waiting (w : Words) : (loadWords w s).waiting = s.waiting := rfl
@[simp] theorem loadWords_inputs (w : Words) : (loadWords w s).inputs = s.inputs := rfl
@[simp] theorem loadWords_stepPulses (w : Words) : (loadWords w s).stepPulses = s.stepPulses := rfl
@[simp] theorem loadWords_errorMark (w : Words) : (loadWords w s).errorMark = s.errorMark := rfl
@[simp] theorem loadWords_now (w : Words) : (loadWords w s).now = s.now := rfl

@[simp] theorem respond_words (v : Word) : (respond v s).words = s.words := rfl
@[simp] theorem respond_seeded (v : Word) : (respond v s).seeded = s.seeded := rfl
@[simp] theorem respond_busy (v : Word) : (respond v s).busy = s.busy := rfl
@[simp] theorem respond_acc (v : Word) : (respond v s).acc = s.acc := rfl
@[simp] theorem respond_jidx (v : Word) : (respond v s).jidx = s.jidx := rfl
@[simp] theorem respond_rsp (v : Word) : (respond v s).rsp = some ⟨.ok, v⟩ := rfl
@[simp] theorem respond_waiting (v : Word) : (respond v s).waiting = s.waiting := rfl
@[simp] theorem respond_inputs (v : Word) : (respond v s).inputs = s.inputs := rfl
@[simp] theorem respond_stepPulses (v : Word) : (respond v s).stepPulses = s.stepPulses := rfl
@[simp] theorem respond_errorMark (v : Word) : (respond v s).errorMark = s.errorMark := rfl
@[simp] theorem respond_now (v : Word) : (respond v s).now = s.now := rfl

@[simp] theorem raise_words (e : ErrCode) : (raise e s).words = s.words := rfl
@[simp] theorem raise_seeded (e : ErrCode) : (raise e s).seeded = s.seeded := rfl
@[simp] theorem raise_busy (e : ErrCode) : (raise e s).busy = s.busy := rfl
@[simp] theorem raise_acc (e : ErrCode) : (raise e s).acc = s.acc := rfl
@[simp] theorem raise_jidx (e : ErrCode) : (raise e s).jidx = s.jidx := rfl
@[simp] theorem raise_rsp (e : ErrCode) : (raise e s).rsp = some ⟨e, 0#64⟩ := rfl
@[simp] theorem raise_waiting (e : ErrCode) : (raise e s).waiting = s.waiting := rfl
@[simp] theorem raise_inputs (e : ErrCode) : (raise e s).inputs = s.inputs := rfl
@[simp] theorem raise_stepPulses (e : ErrCode) : (raise e s).stepPulses = s.stepPulses := rfl
@[simp] theorem raise_errorMark (e : ErrCode) : (raise e s).errorMark = true := rfl
@[simp] theorem raise_now (e : ErrCode) : (raise e s).now = s.now := rfl

@[simp] theorem accept_words : (accept s).words = s.words := rfl
@[simp] theorem accept_seeded : (accept s).seeded = s.seeded := rfl
@[simp] theorem accept_busy : (accept s).busy = true := rfl
@[simp] theorem accept_acc : (accept s).acc = s.acc := rfl
@[simp] theorem accept_jidx : (accept s).jidx = s.jidx := rfl
@[simp] theorem accept_rsp : (accept s).rsp = none := rfl
@[simp] theorem accept_waiting : (accept s).waiting = none := rfl
@[simp] theorem accept_inputs : (accept s).inputs = s.inputs := rfl
@[simp] theorem accept_stepPulses : (accept s).stepPulses = s.stepPulses := rfl
@[simp] theorem accept_errorMark : (accept s).errorMark = s.errorMark := rfl
@[simp] theorem accept_now : (accept s).now = s.now := rfl

@[simp] theorem takeResponse_words : (takeResponse s).words = s.words := rfl
@[simp] theorem takeResponse_seeded : (takeResponse s).seeded = s.seeded := rfl
@[simp] theorem takeResponse_busy : (takeResponse s).busy = false := rfl
@[simp] theorem takeResponse_acc : (takeResponse s).acc = s.acc := rfl
@[simp] theorem takeResponse_jidx : (takeResponse s).jidx = s.jidx := rfl
@[simp] theorem takeResponse_rsp : (takeResponse s).rsp = none := rfl
@[simp] theorem takeResponse_waiting : (takeResponse s).waiting = s.waiting := rfl
@[simp] theorem takeResponse_inputs : (takeResponse s).inputs = s.inputs := rfl
@[simp] theorem takeResponse_stepPulses : (takeResponse s).stepPulses = s.stepPulses := rfl
@[simp] theorem takeResponse_errorMark : (takeResponse s).errorMark = s.errorMark := rfl
@[simp] theorem takeResponse_now : (takeResponse s).now = s.now := rfl

@[simp] theorem resetEvent_words : (resetEvent s).words = Config.unspecifiedState s.now := rfl
@[simp] theorem resetEvent_seeded : (resetEvent s).seeded = false := rfl
@[simp] theorem resetEvent_busy : (resetEvent s).busy = false := rfl
@[simp] theorem resetEvent_acc : (resetEvent s).acc = Config.unspecifiedAcc s.now := rfl
@[simp] theorem resetEvent_jidx : (resetEvent s).jidx = Config.unspecifiedIndex s.now := rfl
@[simp] theorem resetEvent_rsp : (resetEvent s).rsp = none := rfl
@[simp] theorem resetEvent_waiting : (resetEvent s).waiting = s.waiting := rfl
@[simp] theorem resetEvent_inputs : (resetEvent s).inputs = s.inputs := rfl
@[simp] theorem resetEvent_stepPulses : (resetEvent s).stepPulses = s.stepPulses := rfl
@[simp] theorem resetEvent_errorMark : (resetEvent s).errorMark = s.errorMark := rfl
@[simp] theorem resetEvent_now : (resetEvent s).now = s.now := rfl

@[simp] theorem jumpStart_words : (jumpStart s).words = s.words := rfl
@[simp] theorem jumpStart_seeded : (jumpStart s).seeded = s.seeded := rfl
@[simp] theorem jumpStart_busy : (jumpStart s).busy = s.busy := rfl
@[simp] theorem jumpStart_acc : (jumpStart s).acc = Words.zero := rfl
@[simp] theorem jumpStart_jidx : (jumpStart s).jidx = 0#8 := rfl
@[simp] theorem jumpStart_rsp : (jumpStart s).rsp = s.rsp := rfl
@[simp] theorem jumpStart_waiting : (jumpStart s).waiting = s.waiting := rfl
@[simp] theorem jumpStart_inputs : (jumpStart s).inputs = s.inputs := rfl
@[simp] theorem jumpStart_stepPulses : (jumpStart s).stepPulses = s.stepPulses := rfl
@[simp] theorem jumpStart_errorMark : (jumpStart s).errorMark = s.errorMark := rfl
@[simp] theorem jumpStart_now : (jumpStart s).now = s.now := rfl

@[simp] theorem storeEngine_words (e : JumpEngine) : (storeEngine e s).words = e.words := rfl
@[simp] theorem storeEngine_seeded (e : JumpEngine) : (storeEngine e s).seeded = s.seeded := rfl
@[simp] theorem storeEngine_busy (e : JumpEngine) : (storeEngine e s).busy = s.busy := rfl
@[simp] theorem storeEngine_acc (e : JumpEngine) : (storeEngine e s).acc = e.acc := rfl
@[simp] theorem storeEngine_jidx (e : JumpEngine) : (storeEngine e s).jidx = e.jidx := rfl
@[simp] theorem storeEngine_rsp (e : JumpEngine) : (storeEngine e s).rsp = s.rsp := rfl
@[simp] theorem storeEngine_waiting (e : JumpEngine) : (storeEngine e s).waiting = s.waiting := rfl
@[simp] theorem storeEngine_inputs (e : JumpEngine) : (storeEngine e s).inputs = s.inputs := rfl
@[simp] theorem storeEngine_stepPulses (e : JumpEngine) : (storeEngine e s).stepPulses = e.pulses := rfl
@[simp] theorem storeEngine_errorMark (e : JumpEngine) : (storeEngine e s).errorMark = s.errorMark := rfl
@[simp] theorem storeEngine_now (e : JumpEngine) : (storeEngine e s).now = s.now := rfl

@[simp] theorem engineOf_words : (engineOf s).words = s.words := rfl
@[simp] theorem engineOf_acc : (engineOf s).acc = s.acc := rfl
@[simp] theorem engineOf_jidx : (engineOf s).jidx = s.jidx := rfl
@[simp] theorem engineOf_pulses : (engineOf s).pulses = s.stepPulses := rfl

@[simp] theorem jumpCommit_words : (jumpCommit s).words = s.acc := rfl
@[simp] theorem jumpCommit_seeded : (jumpCommit s).seeded = s.seeded := rfl
@[simp] theorem jumpCommit_busy : (jumpCommit s).busy = s.busy := rfl
@[simp] theorem jumpCommit_acc : (jumpCommit s).acc = s.acc := rfl
@[simp] theorem jumpCommit_jidx : (jumpCommit s).jidx = s.jidx := rfl
@[simp] theorem jumpCommit_rsp : (jumpCommit s).rsp = s.rsp := rfl
@[simp] theorem jumpCommit_waiting : (jumpCommit s).waiting = s.waiting := rfl
@[simp] theorem jumpCommit_inputs : (jumpCommit s).inputs = s.inputs := rfl
@[simp] theorem jumpCommit_stepPulses : (jumpCommit s).stepPulses = s.stepPulses := rfl
@[simp] theorem jumpCommit_errorMark : (jumpCommit s).errorMark = s.errorMark := rfl
@[simp] theorem jumpCommit_now : (jumpCommit s).now = s.now := rfl

@[simp] theorem jumpRelease_words : (jumpRelease s).words = s.words := rfl
@[simp] theorem jumpRelease_seeded : (jumpRelease s).seeded = s.seeded := rfl
@[simp] theorem jumpRelease_busy : (jumpRelease s).busy = s.busy := rfl
@[simp] theorem jumpRelease_acc : (jumpRelease s).acc = Config.unspecifiedAcc s.now := rfl
@[simp] theorem jumpRelease_jidx : (jumpRelease s).jidx = Config.unspecifiedIndex s.now := rfl
@[simp] theorem jumpRelease_rsp : (jumpRelease s).rsp = s.rsp := rfl
@[simp] theorem jumpRelease_waiting : (jumpRelease s).waiting = s.waiting := rfl
@[simp] theorem jumpRelease_inputs : (jumpRelease s).inputs = s.inputs := rfl
@[simp] theorem jumpRelease_stepPulses : (jumpRelease s).stepPulses = s.stepPulses := rfl
@[simp] theorem jumpRelease_errorMark : (jumpRelease s).errorMark = s.errorMark := rfl
@[simp] theorem jumpRelease_now : (jumpRelease s).now = s.now := rfl

@[simp] theorem advance_words : (advance s).words = s.words := rfl
@[simp] theorem advance_seeded : (advance s).seeded = s.seeded := rfl
@[simp] theorem advance_busy : (advance s).busy = s.busy := rfl
@[simp] theorem advance_acc : (advance s).acc = s.acc := rfl
@[simp] theorem advance_jidx : (advance s).jidx = s.jidx := rfl
@[simp] theorem advance_rsp : (advance s).rsp = s.rsp := rfl
@[simp] theorem advance_waiting : (advance s).waiting = s.waiting := rfl
@[simp] theorem advance_inputs : (advance s).inputs = s.inputs.tail := rfl
@[simp] theorem advance_stepPulses : (advance s).stepPulses = s.stepPulses := rfl
@[simp] theorem advance_errorMark : (advance s).errorMark = s.errorMark := rfl
@[simp] theorem advance_now : (advance s).now = s.now + 1 := rfl

end Sys2Proof.Machine
end

