-- ==== Sys2Proof/Laws/Ops.lean ====
section
/-! SUPPORT. What each shared operation can do, said once: the guard, drawing a word, the ports, the step. -/

namespace Sys2Proof.Machine

variable {s t p : State}

/-- The guard of the commands that read the state, seeded. -/
@[simp] theorem whenSeeded_seeded (h : s.seeded = true) : whenSeeded s p = .next p := by
  simp [whenSeeded, h]

/-- The guard of the commands that read the state, unseeded. -/
@[simp] theorem whenSeeded_unseeded (h : s.seeded = false) : whenSeeded s p = .next (raise .notSeeded s) := by
  simp [whenSeeded, h]

/-- The guard always answers a next state: the command performed, or NOT_SEEDED raised (R65, R95). -/
theorem whenSeeded_next (h : whenSeeded s p = .next t) :
    (s.seeded = true ∧ t = p) ∨ (s.seeded = false ∧ t = raise .notSeeded s) := by
  cases hs : s.seeded with
  | true => rw [whenSeeded_seeded hs] at h; cases h; exact .inl ⟨rfl, rfl⟩
  | false => rw [whenSeeded_unseeded hs] at h; cases h; exact .inr ⟨rfl, rfl⟩

/-- Drawing a word, seeded: one transition and a response computed from the word before it. -/
theorem drawWord_seeded (f : Word → Word) (h : s.seeded = true) :
    drawWord f s = .next (respond (f (out s.words)) (transit s)) := whenSeeded_seeded h

/-- Drawing a word, unseeded: NOT_SEEDED. -/
theorem drawWord_unseeded (f : Word → Word) (h : s.seeded = false) :
    drawWord f s = .next (raise .notSeeded s) := whenSeeded_unseeded h

/-- The pulses that an abandoned command leaves: those it has made (R104, R108). -/
@[simp] theorem abandon_stepPulses (k : Nat) (i : Instr) (s : State) :
    (abandon k i s).stepPulses = s.stepPulses + min k (transitions i s) := rfl

/-- An abandoned command makes no more transitions than the whole command. -/
theorem transitions_le (i : Instr) (s : State) : transitions i s ≤ 256 := by
  unfold transitions
  split
  · cases i <;> simp [transitionsOf]
  · simp

/-- The transitions of a command depend on SEEDED alone. -/
theorem transitions_congr (i : Instr) (h : s.seeded = t.seeded) : transitions i s = transitions i t := by
  simp [transitions, h]

/-- `cmd_ready_o` outside a reset that is asserted first (R23). -/
theorem cmdReadyO_of_rst (h : (port s).rst ≠ .high) : cmdReadyO s = !s.busy := by
  simp [cmdReadyO, h]

/-- `cmd_ready_o` in a reset (R107). -/
theorem cmdReadyO_of_rst_high (h : (port s).rst = .high) : cmdReadyO s = false := by
  simp [cmdReadyO, h]

/-- The pulses between two states, the output being there (R5, R104). -/
theorem stepO_eq (s t : State) : stepO s t = some (t.stepPulses - s.stepPulses) := rfl

/-- The ports when the host drives a sample. -/
@[simp] theorem port_cons (i : Inputs) (rest : List Inputs) : port { s with inputs := i :: rest } = i := rfl

/-- A port shows the same to the block as itself. -/
@[simp] theorem samePresented_refl (a : Option Command) : samePresented a a = true := by
  simp [samePresented]

/-- With nothing waiting no handshake can be broken. -/
@[simp] theorem handshakeBroken_of_waiting_none (h : s.waiting = none) : handshakeBroken s = false := by
  simp [handshakeBroken, h]

/-- The handshake is broken exactly when what waits is not presented any more, up to what the block can tell apart (R115, U8). -/
theorem handshakeBroken_iff (s : State) :
    handshakeBroken s = true ↔ ∃ c, s.waiting = some c ∧ ∀ d, (port s).cmd = some d → decode d ≠ decode c := by
  cases hw : s.waiting <;> cases hc : (port s).cmd <;> simp [handshakeBroken, samePresented, hw, hc, ne_comm]

/-- An output response code is one of three: code 3 is never shown (R93). -/
theorem errBits_ne_three (e : ErrCode) : errBits e ≠ 3#2 := by
  cases e <;> decide

/-- A step with the handshake kept. -/
theorem step_of_kept (hk : handshakeBroken s = false) : step s = transact (port s) (advance s) := by
  simp [step, hk]

/-- A step with the handshake broken (U8). -/
theorem step_of_broken (hk : handshakeBroken s = true) : step s = .refused .handshakeBroken := by
  simp [step, hk]

/-- Everything a step can do. -/
theorem step_cases (s : State) :
    (handshakeBroken s = true ∧ step s = .refused .handshakeBroken)
    ∨ (handshakeBroken s = false ∧ step s = transact (port s) (advance s)) := by
  cases hk : handshakeBroken s with
  | true => exact .inl ⟨rfl, step_of_broken hk⟩
  | false => exact .inr ⟨rfl, step_of_kept hk⟩

/-- The step of a sample with `rst` high, the handshake kept (R107). -/
theorem step_of_rst_high (hk : handshakeBroken s = false) (h : (port s).rst = .high) :
    step s = .next (resetEvent { advance s with waiting := (port s).cmd }) := by
  rw [step_of_kept hk]
  simp [transact, h]

/-- Everything a transaction step can do, with its guard: a reset that accepts nothing, a command abandoned by a reset, and, with no reset,
the response taken or held, a command performed, or nothing. -/
theorem transact_cases (i : Inputs) (s : State) :
    (i.rst ≠ .low ∧ (i.rst = .high ∨ s.busy = true ∨ i.cmd = none)
        ∧ transact i s = .next (resetEvent { s with waiting := i.cmd }))
    ∨ (∃ k c, i.rst = .during k ∧ s.busy = false ∧ i.cmd = some c ∧ transact i s = .next (abandon k (decode c) (accept s)))
    ∨ (i.rst = .low ∧ s.busy = true ∧ (i.rspReady && s.rsp.isSome) = true
        ∧ transact i s = .next (takeResponse { s with waiting := i.cmd }))
    ∨ (i.rst = .low ∧ s.busy = true ∧ (i.rspReady && s.rsp.isSome) = false
        ∧ transact i s = .next { s with waiting := i.cmd })
    ∨ (∃ c, i.rst = .low ∧ s.busy = false ∧ i.cmd = some c ∧ transact i s = exec (decode c) (accept s))
    ∨ (i.rst = .low ∧ s.busy = false ∧ i.cmd = none ∧ transact i s = .next { s with waiting := none }) := by
  unfold transact
  cases hb : s.busy <;> cases hc : i.cmd <;> cases hr : i.rst <;> simp_all <;>
    cases i.rspReady <;> cases s.rsp <;> simp

end Sys2Proof.Machine
end

