-- ==== Sys2Proof/Laws/Jump.lean ====
section
/-! SUPPORT. What `n` iterations of the jump engine do (spec/43_jump.md R81 to R83), and which fields of the state a JUMP leaves alone. -/

namespace Sys2Proof.Machine

variable (e : JumpEngine) (s : State)

@[simp] theorem jumpIteration_words : (jumpIteration e).words = transition e.words := rfl

@[simp] theorem jumpIteration_acc :
    (jumpIteration e).acc = if jumpBit e.jidx then e.acc.xor e.words else e.acc := rfl

@[simp] theorem jumpIteration_jidx : (jumpIteration e).jidx = e.jidx + 1#8 := rfl

@[simp] theorem jumpIteration_pulses : (jumpIteration e).pulses = e.pulses + 1 := rfl

theorem jumpIterations_succ (n : Nat) : jumpIterations (n + 1) e = jumpIterations n (jumpIteration e) := rfl

/-- One more iteration at the end. -/
theorem jumpIterations_succ_last (n : Nat) (e : JumpEngine) :
    jumpIterations (n + 1) e = jumpIteration (jumpIterations n e) := by
  induction n generalizing e with
  | zero => rfl
  | succ n ih => rw [jumpIterations_succ, ih, ← jumpIterations_succ]

/-- The state words go through `n` transitions. -/
theorem jumpIterations_words (n : Nat) : (jumpIterations n e).words = transition^[n] e.words := by
  induction n with
  | zero => rfl
  | succ n ih => rw [jumpIterations_succ_last, jumpIteration_words, ih, Function.iterate_succ_apply']

/-- The index counts the iterations. -/
theorem jumpIterations_jidx (n : Nat) : (jumpIterations n e).jidx = e.jidx + BitVec.ofNat 8 n := by
  induction n with
  | zero => simp [jumpIterations]
  | succ n ih =>
    rw [jumpIterations_succ_last, jumpIteration_jidx, ih, BitVec.add_assoc, BitVec.ofNat_add]

/-- The number of iterations of one JUMP (R85). It is not unfolded otherwise, so that no proof runs the loop. -/
theorem jumpIters_eq : jumpIters = 256 := rfl

/-- The words after a JUMP are the engine's accumulators (R84). -/
theorem jumped_words : (jumped s).words = (jumpIterations jumpIters ⟨s.words, Words.zero, 0#8, s.stepPulses⟩).acc := rfl

/-- The pulses after a JUMP are the engine's. -/
theorem jumped_stepPulses :
    (jumped s).stepPulses = (jumpIterations jumpIters ⟨s.words, Words.zero, 0#8, s.stepPulses⟩).pulses := rfl

@[simp] theorem jumped_seeded : (jumped s).seeded = s.seeded := rfl
@[simp] theorem jumped_busy : (jumped s).busy = s.busy := rfl
@[simp] theorem jumped_rsp : (jumped s).rsp = s.rsp := rfl
@[simp] theorem jumped_waiting : (jumped s).waiting = s.waiting := rfl
@[simp] theorem jumped_inputs : (jumped s).inputs = s.inputs := rfl
@[simp] theorem jumped_errorMark : (jumped s).errorMark = s.errorMark := rfl
@[simp] theorem jumped_now : (jumped s).now = s.now := rfl

end Sys2Proof.Machine
end

