-- ==== Sys2Proof/Laws/Exec.lean ====
section
/-! SUPPORT. Everything that performing a command can do, said once, with its guards: the shape that every claim about exec is proved from
by case analysis. -/

namespace Sys2Proof.Machine

variable {s : State}

theorem exec_next_seeded (h : s.seeded = true) : exec .next s = .next (drawnWith (out s.words) s) := by
  simp only [exec, execNext]; rw [drawWord_seeded _ h]; rfl

theorem exec_f32co_seeded (h : s.seeded = true) :
    exec .f32co s = .next (drawnWith (scaleF32CO (out s.words)) s) := by
  simp only [exec, execF32CO]; rw [drawWord_seeded _ h]; rfl

theorem exec_f32cc_seeded (h : s.seeded = true) :
    exec .f32cc s = .next (drawnWith (scaleF32CC scalerRounding (out s.words)) s) := by
  simp only [exec, execF32CC]; rw [drawWord_seeded _ h]; rfl

theorem exec_f64co_seeded (h : s.seeded = true) :
    exec .f64co s = .next (drawnWith (scaleF64CO (out s.words)) s) := by
  simp only [exec, execF64CO]; rw [drawWord_seeded _ h]; rfl

theorem exec_f64cc_seeded (h : s.seeded = true) :
    exec .f64cc s = .next (drawnWith (scaleF64CC scalerRounding (out s.words)) s) := by
  simp only [exec, execF64CC]; rw [drawWord_seeded _ h]; rfl

theorem exec_jump_seeded (h : s.seeded = true) : exec .jump s = .next (respond 0#64 (jumped s)) := by
  simp only [exec, execJump]; rw [whenSeeded_seeded h]

/-- A command that reads the state, unseeded. -/
theorem exec_reader_unseeded {i : Instr} (hi : readsState i = true) (h : s.seeded = false) :
    exec i s = .next (raise .notSeeded s) := by
  cases i <;> simp [readsState] at hi <;>
    simp only [exec, execNext, execF32CO, execF32CC, execF64CO, execF64CC, execJump]
  all_goals first | exact drawWord_unseeded _ h | exact whenSeeded_unseeded h

/-- Performing a command does one of five things: it loads the words; it is illegal; it is refused unseeded; it jumps; it draws one word. -/
theorem exec_cases (i : Instr) (s : State) :
    (∃ m, i = .seed m ∧ exec i s = .next (respond 0#64 (setSeeded (loadWords (packSeed m) s))))
    ∨ (i = .reserved ∧ exec i s = .next (raise .illegalCmd s))
    ∨ (readsState i = true ∧ s.seeded = false ∧ exec i s = .next (raise .notSeeded s))
    ∨ (i = .jump ∧ s.seeded = true ∧ exec i s = .next (respond 0#64 (jumped s)))
    ∨ (readsState i = true ∧ i ≠ .jump ∧ s.seeded = true ∧ ∃ d, exec i s = .next (drawnWith d s)) := by
  cases hs : s.seeded
  · cases i
    case seed m => exact .inl ⟨m, rfl, rfl⟩
    case reserved => exact .inr (.inl ⟨rfl, rfl⟩)
    all_goals exact .inr (.inr (.inl ⟨rfl, rfl, exec_reader_unseeded rfl hs⟩))
  · cases i
    case seed m => exact .inl ⟨m, rfl, rfl⟩
    case reserved => exact .inr (.inl ⟨rfl, rfl⟩)
    case jump => exact .inr (.inr (.inr (.inl ⟨rfl, rfl, exec_jump_seeded hs⟩)))
    all_goals refine .inr (.inr (.inr (.inr ⟨rfl, by simp, rfl, ?_⟩)))
    exacts [⟨_, exec_next_seeded hs⟩, ⟨_, exec_f32co_seeded hs⟩, ⟨_, exec_f32cc_seeded hs⟩,
      ⟨_, exec_f64co_seeded hs⟩, ⟨_, exec_f64cc_seeded hs⟩]

end Sys2Proof.Machine
end

