-- ==== Sys2Proof/Laws/Lanes.lean ====
section
/-! SUPPORT. The seed lanes: the number on the port, digit by digit (spec/20_memory.md R30). -/

namespace Sys2Proof

@[simp] theorem lanesNat_nil : lanesNat [] = 0 := rfl

@[simp] theorem lanesNat_cons (b : Byte) (rest : List Byte) : lanesNat (b :: rest) = b.toNat + 256 * lanesNat rest := rfl

/-- The number of `n` bytes fits `8 n` bits. -/
theorem lanesNat_lt (l : List Byte) : lanesNat l < 2 ^ (8 * l.length) := by
  induction l with
  | nil => simp
  | cons b rest ih =>
    have hb := b.isLt
    have : (2 : Nat) ^ (8 * (rest.length + 1)) = 256 * 2 ^ (8 * rest.length) := by
      rw [Nat.mul_add, Nat.pow_add]; ring
    simp only [lanesNat_cons, List.length_cons, this]
    omega

/-- Byte `i` of the seed that the port carries is lane `i` (R30). -/
@[simp] theorem seedLanes_getElem (x : BitVec 256) (i : Nat) (h : i < 32) :
    (seedLanes x)[i] = x.extractLsb' (8 * i) 8 := by
  interval_cases i <;> rfl

/-- Byte `8 j + m` of the seed that loads given words is byte `m` of word `j`, the most significant first (R55). -/
theorem seedOfWords_getElem (w : Words) (j : Fin 4) (m : Fin 8) :
    (Machine.seedOfWords w)[8 * j.val + m.val] = Machine.byteOf w j m.val := by
  fin_cases j <;> fin_cases m <;> rfl

end Sys2Proof
end

