-- ==== Sys2Proof/Laws/PerInstr.lean ====
section
/-! SUPPORT. Per-instruction facts about the syntax. Family OpcodeKept: the port value that encodes a command decodes to a well-formed
command with the same opcode, whatever its operand (spec/30_encoding.md R39, R46). -/

namespace Sys2Proof.Laws

/-- The opcode survives encoding and decoding. -/
def OpcodeKept.Statement (i : Instr) : Prop :=
  opcodeOf (decode (encode i)) = opcodeOf i ∧ (decode (encode i)).wellFormed = true

theorem OpcodeKept.seed (m : Seed) : OpcodeKept.Statement (.seed m) := by
  simp [OpcodeKept.Statement, encode, decode, opcodeOf, Instr.wellFormed]

theorem OpcodeKept.next : OpcodeKept.Statement .next := ⟨rfl, rfl⟩
theorem OpcodeKept.f32co : OpcodeKept.Statement .f32co := ⟨rfl, rfl⟩
theorem OpcodeKept.f32cc : OpcodeKept.Statement .f32cc := ⟨rfl, rfl⟩
theorem OpcodeKept.f64co : OpcodeKept.Statement .f64co := ⟨rfl, rfl⟩
theorem OpcodeKept.f64cc : OpcodeKept.Statement .f64cc := ⟨rfl, rfl⟩
theorem OpcodeKept.jump : OpcodeKept.Statement .jump := ⟨rfl, rfl⟩
theorem OpcodeKept.reserved : OpcodeKept.Statement .reserved := ⟨rfl, rfl⟩

end Sys2Proof.Laws
end

