-- ==== Sys2Proof/Laws/Words.lean ====
section
/-! SUPPORT. The register file as four words, and the bounds of `bitlen`. -/

namespace Sys2Proof

@[simp] theorem Words.xor_s0 (a b : Words) : (a.xor b).s0 = a.s0 ^^^ b.s0 := rfl
@[simp] theorem Words.xor_s1 (a b : Words) : (a.xor b).s1 = a.s1 ^^^ b.s1 := rfl
@[simp] theorem Words.xor_s2 (a b : Words) : (a.xor b).s2 = a.s2 ^^^ b.s2 := rfl
@[simp] theorem Words.xor_s3 (a b : Words) : (a.xor b).s3 = a.s3 ^^^ b.s3 := rfl
@[simp] theorem Words.zero_s0 : Words.zero.s0 = 0#64 := rfl
@[simp] theorem Words.zero_s1 : Words.zero.s1 = 0#64 := rfl
@[simp] theorem Words.zero_s2 : Words.zero.s2 = 0#64 := rfl
@[simp] theorem Words.zero_s3 : Words.zero.s3 = 0#64 := rfl
@[simp] theorem Words.get_zero (w : Words) : w.get 0 = w.s0 := rfl
@[simp] theorem Words.get_one (w : Words) : w.get 1 = w.s1 := rfl
@[simp] theorem Words.get_two (w : Words) : w.get 2 = w.s2 := rfl
@[simp] theorem Words.get_three (w : Words) : w.get 3 = w.s3 := rfl

/-- Two register files with the same words are the same. -/
theorem Words.ext_words {a b : Words} (h0 : a.s0 = b.s0) (h1 : a.s1 = b.s1) (h2 : a.s2 = b.s2) (h3 : a.s3 = b.s3) :
    a = b := by
  cases a; cases b; simp_all

theorem Words.xor_comm (a b : Words) : a.xor b = b.xor a :=
  Words.ext_words (BitVec.xor_comm ..) (BitVec.xor_comm ..) (BitVec.xor_comm ..) (BitVec.xor_comm ..)

theorem Words.xor_assoc (a b c : Words) : (a.xor b).xor c = a.xor (b.xor c) :=
  Words.ext_words (BitVec.xor_assoc ..) (BitVec.xor_assoc ..) (BitVec.xor_assoc ..) (BitVec.xor_assoc ..)

@[simp] theorem Words.zero_xor (a : Words) : Words.zero.xor a = a := by
  apply Words.ext_words <;> simp

@[simp] theorem Words.xor_self (a : Words) : a.xor a = Words.zero := by
  apply Words.ext_words <;> simp

namespace Machine

@[simp] theorem bitlen_zero : bitlen 0 = 0 := rfl

/-- `n` has no bit at or above position `bitlen n` (R8). -/
theorem lt_two_pow_bitlen (n : Nat) : n < 2 ^ bitlen n := by
  unfold bitlen
  split
  · simp_all
  · exact Nat.lt_log2_self

/-- The most significant bit of a positive number is at position `bitlen n - 1` (R8). -/
theorem two_pow_bitlen_le {n : Nat} (h : n ≠ 0) : 2 ^ (bitlen n - 1) ≤ n := by
  simpa [bitlen, h] using Nat.log2_self_le h

theorem bitlen_pos {n : Nat} (h : n ≠ 0) : 0 < bitlen n := by
  simp [bitlen, h]

/-- `bitlen` is the one length that fits. -/
theorem bitlen_le_iff (n k : Nat) : bitlen n ≤ k ↔ n < 2 ^ k := by
  constructor
  · intro h
    exact lt_of_lt_of_le (lt_two_pow_bitlen n) (Nat.pow_le_pow_right (by omega) h)
  · intro h
    by_contra hk
    have hn : n ≠ 0 := by rintro rfl; simp at hk
    have := Nat.pow_le_pow_right (n := 2) (by omega) (show k ≤ bitlen n - 1 by omega)
    have := two_pow_bitlen_le hn
    omega

end Machine

end Sys2Proof
end

