-- ==== Sys2Proof/Tests/Slice0.lean ====
section
/-! SUPPORT. Tests on fixed values, each expected value taken from the spec (the place is named), and the witnesses: for every statement
with hypotheses, concrete states and operands that meet them, clause by clause. -/

namespace Sys2Proof.Tests

open Sys2Proof Sys2Proof.Machine

-- The closed facts below are checked one after another, so that a build needs few threads.
set_option Elab.async false

/-! ## Small helpers -/

/-- A seeded idle machine with given words. -/
def seededWith (w : Words) : State := { State.reset with words := w, seeded := true }

/-- An unseeded idle machine with given words. -/
def unseededWith (w : Words) : State := { State.reset with words := w }

/-- The state `(1, 2, 3, 4)` of the spec's worked examples. -/
def w1234 : Words := ⟨1#64, 2#64, 3#64, 4#64⟩

/-- The state of the source's seeding example (R51). -/
def wRx : Words := ⟨0x0001020304050607#64, 0x08090A0B0C0D0E0F#64, 0x1011121314151617#64, 0x18191A1B1C1D1E1F#64⟩

/-- A machine whose host drives given samples. -/
def driving (s : State) (is : List Inputs) : State := { s with inputs := is }

/-- A sample that presents a command and does not take a response. -/
def presents (c : Command) : Inputs := ⟨.low, some c, false⟩

/-- The words, SEEDED, the response and the pulses that an outcome leaves. -/
def view : Host.Outcome State Fault Refusal → Option (Words × Bool × Option Response × Nat)
  | .next t => some (t.words, t.seeded, t.rsp, t.stepPulses)
  | .fault _ => none
  | .refused _ => none

/-- SEEDED, BUSY, the response and the pulses that an outcome leaves. -/
def flags : Host.Outcome State Fault Refusal → Option (Bool × Bool × Option Response × Nat)
  | .next t => some (t.seeded, t.busy, t.rsp, t.stepPulses)
  | .fault _ => none
  | .refused _ => none

/-- What an outcome was refused for. -/
def refusal : Host.Outcome State Fault Refusal → Option Refusal
  | .next _ => none
  | .fault _ => none
  | .refused r => some r

/-! ## WellFormed: ill-formed raw data are refused (R28, R39, U10) -/

theorem test_opcode_eight_refused : (RawCommand.mk 8 (List.replicate 32 0#8)).wellFormed = false := by decide
theorem test_seed_of_31_bytes_refused : (RawCommand.mk 0 (List.replicate 31 0#8)).wellFormed = false := by decide
theorem test_seed_of_33_bytes_refused : (RawCommand.mk 0 (List.replicate 33 0#8)).wellFormed = false := by decide
theorem test_opcode_seven_well_formed : (RawCommand.mk 7 (List.replicate 32 0#8)).wellFormed = true := by decide
theorem test_toCommand_names_the_opcode :
    (RawCommand.mk 8 (List.replicate 32 0#8)).toCommand = .error (.opcodeTooWide 8) := by rfl
theorem test_toCommand_names_the_seed_length :
    (RawCommand.mk 0 (List.replicate 31 0#8)).toCommand = .error (.seedLength 31) := by rfl

/-! ## Decode: words written out from R39 and R30, one for each constructor (table of 95_test_vectors.md 7.1) -/

theorem test_decode_seed : decode ⟨0b000#3, 0x1F1E1D1C1B1A191817161514131211100F0E0D0C0B0A09080706050403020100#256⟩
    = .seed #v[0x00, 0x01, 0x02, 0x03, 0x04, 0x05, 0x06, 0x07, 0x08, 0x09, 0x0A, 0x0B, 0x0C, 0x0D, 0x0E, 0x0F,
        0x10, 0x11, 0x12, 0x13, 0x14, 0x15, 0x16, 0x17, 0x18, 0x19, 0x1A, 0x1B, 0x1C, 0x1D, 0x1E, 0x1F] := by decide +kernel
theorem test_decode_next : decode ⟨0b001#3, 0#256⟩ = .next := by decide
theorem test_decode_f32co : decode ⟨0b010#3, 0#256⟩ = .f32co := by decide
theorem test_decode_f32cc : decode ⟨0b011#3, 0#256⟩ = .f32cc := by decide
theorem test_decode_f64co : decode ⟨0b100#3, 0#256⟩ = .f64co := by decide
theorem test_decode_f64cc : decode ⟨0b101#3, 0#256⟩ = .f64cc := by decide
theorem test_decode_jump : decode ⟨0b110#3, 0#256⟩ = .jump := by decide
theorem test_decode_reserved : decode ⟨0b111#3, 0xFF#256⟩ = .reserved := by decide

/-- The table word of each opcode, with the seed bits zero, as the opcode table gives it: the low three bits. -/
theorem test_table_words : (List.range 8).map (decodeTableWord 3)
    = [some (.seed (Vector.replicate 32 0#8)), some .next, some .f32co, some .f32cc, some .f64co, some .f64cc, some .jump,
        some .reserved] := by decide +kernel

/-- A table word whose opcode byte does not fit the port is rejected; a whole SEED word keeps all its seed bytes (S8 of section 2). -/
theorem test_table_word_rejected : decodeTableWord 8 9 = none := by decide +kernel
theorem test_table_word_seed : (decodeTableWord 264 (2 ^ 256)).map (fun i => (encode i).seed) = some (BitVec.ofNat 256 (2 ^ 248)) := by
  decide +kernel
theorem test_decodeBytes_empty : decodeBytes [] = .error .noOpcode := by rfl

/-- The very first step after reset runs the fetched word: JUMP unseeded is refused with NOT_SEEDED (7.2). -/
theorem test_fetched_word_runs : flags (step (State.reset.withFetchWord 3 6)) = some (false, true, some ⟨.notSeeded, 0#64⟩, 0) := by decide

/-! ## Primitives (95_test_vectors.md 3.1; 96_test_vectors_scalers_jump.md 4.1, 4.2) -/

theorem test_mul64_wraps : mul64 0x3333333333333334#64 5#64 = 4#64 ∧ mul64 0x1C71C71C71C71C72#64 9#64 = 2#64 := by decide
theorem test_rotl64_wraps : rotl64 0x8000000000000000#64 7 = 0x40#64 ∧ rotl64 0x80000#64 45 = 1#64 := by decide
theorem test_rne_ties : rne 0x01000001 24 = 0x01000000 ∧ rne 0x01000003 24 = 0x01000004 ∧ rne 0xFFFFFFFF 24 = 0x100000000 := by
  decide +kernel
theorem test_fpenc_half : fpenc 0x800000 24 24 8 127 = 0x3F000000#32 := by decide +kernel

/-! ## One step for each command (95_test_vectors.md 7.2, 7.3, section 2, 3.2; 96_test_vectors_scalers_jump.md 4.3, 5.1) -/

/-- S4: bit 7 of byte 0 becomes bit 63 of `s0`; the data of the response is 0, and no transition is made. -/
theorem test_seed_lanes : view (exec (decode ⟨0b000#3, 0x80#256⟩) (unseededWith wRx))
    = some (⟨0x8000000000000000#64, 0#64, 0#64, 0#64⟩, true, some ⟨.ok, 0#64⟩, 0) := by decide +kernel

/-- S8: byte 31 is the least significant byte of `s3`. -/
theorem test_seed_last_byte : view (exec (decode ⟨0b000#3, BitVec.ofNat 256 (2 ^ 248)⟩) (seededWith wRx))
    = some (⟨0#64, 0#64, 0#64, 1#64⟩, true, some ⟨.ok, 0#64⟩, 0) := by decide +kernel

/-- N18: four distinct words. -/
theorem test_next : view (exec .next (seededWith
      ⟨0x0123456789ABCDEF#64, 0xFEDCBA9876543210#64, 0x0F1E2D3C4B5A6978#64, 0x8796A5B4C3D2E1F0#64⟩))
    = some (⟨0x78695A4B3C2D1E0F#64, 0xF0E1D2C3B4A59687#64, 0x7B0D84F3A6D1A497#64, 0xDA7C0F2943E596B0#64⟩, true,
        some ⟨.ok, 0x6666666666666C65#64⟩, 1) := by decide +kernel
theorem test_next_unseeded : view (exec .next (unseededWith w1234)) = some (w1234, false, some ⟨.notSeeded, 0#64⟩, 0) := by decide

/-- P3, line 2. -/
theorem test_f32co : view (exec .f32co (seededWith wRx))
    = some (⟨0x1011121314151617#64, 0x18191A1B1C1D1E1F#64, 0x0406080A0C0E1010#64, 0x0202020202020202#64⟩, true,
        some ⟨.ok, 0x3F4B61F8#64⟩, 1) := by decide +kernel

/-- P3, line 3. -/
theorem test_f32cc : view (exec .f32cc (seededWith
      ⟨0x1011121314151617#64, 0x18191A1B1C1D1E1F#64, 0x0406080A0C0E1010#64, 0x0202020202020202#64⟩))
    = some (⟨0x0A0A0A0A0A0A0A0A#64, 0x0C0E000204061818#64, 0x2021222324250607#64, 0xE383A343630323C3#64⟩, true,
        some ⟨.ok, 0x3E532D88#64⟩, 1) := by decide +kernel

/-- 7.3: F64CO on `(1, 2, 3, 4)`. -/
theorem test_f64co : view (exec .f64co (seededWith w1234))
    = some (⟨7#64, 0#64, 0x40002#64, 0x0000C00000000000#64⟩, true, some ⟨.ok, 0x3CC4000000000000#64⟩, 1) := by decide +kernel

/-- 7.3: F64CC on `(1, 2, 3, 4)`. -/
theorem test_f64cc : view (exec .f64cc (seededWith w1234))
    = some (⟨7#64, 0#64, 0x40002#64, 0x0000C00000000000#64⟩, true, some ⟨.ok, 0x3CC6800000000000#64⟩, 1) := by decide +kernel

/-- J1 and J5. -/
theorem test_jump : view (exec .jump (seededWith w1234))
    = some (⟨0x8C7A153956B5F3D1#64, 0x701F1A713401D85E#64, 0x6527F66A65469085#64, 0x8386B786C4408050#64⟩, true,
        some ⟨.ok, 0#64⟩, 256) := by decide +kernel
theorem test_jump_of_one_bit : view (exec .jump (seededWith ⟨1#64, 0#64, 0#64, 0#64⟩))
    = some (⟨0x4E430587575D3EB3#64, 0x9109688AD329B960#64, 0x916B739D098C7648#64, 0xCCDD35EC385C77B3#64⟩, true,
        some ⟨.ok, 0#64⟩, 256) := by decide +kernel

/-- 7.2 and 7.3: the reserved opcode, seeded and not; the error mark is set. -/
theorem test_reserved_seeded : exec .reserved (seededWith w1234)
    = .next { seededWith w1234 with rsp := some ⟨.illegalCmd, 0#64⟩, errorMark := true } := by rfl
theorem test_reserved_unseeded : view (exec .reserved (unseededWith w1234)) = some (w1234, false, some ⟨.illegalCmd, 0#64⟩, 0) := by
  decide

/-! ## Ports, reset, handshake -/

/-- `state_o` after the source's example (95_test_vectors.md section 1). -/
theorem test_state_o : stateO (seededWith wRx) = 0x18191A1B1C1D1E1F101112131415161708090A0B0C0D0E0F0001020304050607#256 := by decide
/-- A command presented to a busy block waits, and is accepted after the response is taken (R96). -/
theorem test_command_waits : (match Host.Core.run Sys2Proof.core 3 (driving (seededWith w1234)
      [presents ⟨1#3, 0#256⟩, ⟨.low, some ⟨7#3, 0#256⟩, true⟩, presents ⟨7#3, 0#256⟩]) with
    | .next t => t.rsp
    | .fault _ => none
    | .refused _ => none) = some ⟨.illegalCmd, 0#64⟩ := by decide +kernel
/-- The same with the waiting command changed: refused (U8). -/
theorem test_changed_command_refused : refusal (Host.Core.run Sys2Proof.core 3 (driving (seededWith w1234)
    [presents ⟨1#3, 0#256⟩, ⟨.low, some ⟨7#3, 0#256⟩, true⟩, presents ⟨6#3, 0#256⟩])) = some .handshakeBroken := by decide +kernel
/-- A JUMP abandoned by a reset after 100 transitions (R108): no response, SEEDED clear, 100 pulses made. -/
theorem test_jump_abandoned : flags (step (driving (seededWith w1234) [⟨.during 100, some ⟨6#3, 0#256⟩, false⟩]))
    = some (false, false, none, 100) := by decide +kernel
/-- `cmd_ready_o` is not BUSY but in a reset that comes first (R23, R107), also where a reset comes inside the command. -/
theorem test_cmd_ready : ∀ b ∈ [true, false], ∀ r ∈ [RstLevel.low, .during 0],
    cmdReadyO { driving State.reset [⟨r, some ⟨6#3, 0#256⟩, false⟩] with busy := b } = !b
    ∧ cmdReadyO { driving State.reset [⟨.high, some ⟨6#3, 0#256⟩, false⟩] with busy := b } = false := by decide
/-- P1: the text of a script, driven on the ports; the third word drawn. -/
theorem test_script_p1 : view (Host.Core.run Sys2Proof.core 7 (State.reset.withScript
      (["SEED 000102030405060708090A0B0C0D0E0F101112131415161718191A1B1C1D1E1F", "NEXT  # first", "NEXT", "NEXT"].filterMap
        fun l => parseLine l.toList)))
    = some (⟨0xE587A94B6D0F31D1#64, 0x2625282B2A291415#64, 0x2A2F20251E1F0C0D#64, 0xA77B7DF1B4682CE0#64⟩, true,
        some ⟨.ok, 0x3B002D5A891E1D0E#64⟩, 3) := by decide +kernel

/-! ## Witnesses: each statement's hypotheses are met, clause by clause -/

theorem witness_DecodeEncodeRoundTrip :
    (Instr.seed (Vector.replicate 32 0xFF#8)).wellFormed = true ∧ Instr.reserved.wellFormed = true := by decide
theorem witness_FetchedTableWordRuns :
    decodeTableWord 3 0 = some (.seed (Vector.replicate 32 0#8)) ∧ decodeTableWord 3 7 = some .reserved
    ∧ decodeTableWord 264 (2 ^ 264 - 256) = some (.seed (Vector.replicate 32 0xFF#8)) := by decide +kernel
theorem witness_FormatCIgnoresSeedPort :
    State.reset.busy = false ∧ State.reset.waiting = none ∧ 1#3 ≠ 0#3 ∧ 7#3 ≠ 0#3 := by decide
theorem witness_StepRunsPresentedCommand :
    (let s := driving State.reset [presents ⟨1#3, 5#256⟩];
      s.busy = false ∧ s.waiting = none ∧ s.inputs = [presents ⟨1#3, 5#256⟩])
    ∧ (let s := { driving State.reset [presents ⟨1#3, 5#256⟩] with waiting := some ⟨1#3, 5#256⟩ };
      s.busy = false ∧ s.waiting = some ⟨1#3, 5#256⟩ ∧ s.inputs = [presents ⟨1#3, 5#256⟩]) := by decide
/-- Busy with a response: taken or held; a command waiting already, starting to wait, or none. -/
theorem witness_ResponseHeldUntilTaken :
    ∀ i ∈ [⟨RstLevel.low, none, true⟩, ⟨.low, none, false⟩, ⟨.low, some ⟨6#3, 0#256⟩, true⟩, presents ⟨6#3, 0#256⟩],
      ∀ w ∈ [none, i.cmd],
        let s := { driving (seededWith w1234) [i] with busy := true, rsp := some ⟨.ok, 9#64⟩, waiting := w };
        s.busy = true ∧ s.rsp = some ⟨.ok, 9#64⟩ ∧ s.inputs = [i] ∧ i.rst = .low ∧ (s.waiting = none ∨ s.waiting = i.cmd) := by
  decide
theorem witness_IdleBlockKeepsState :
    State.reset.Idle ∧ State.reset.inputs = [] ∧ (driving (seededWith w1234) [⟨.low, none, true⟩]).Idle
    ∧ (driving (seededWith w1234) [⟨.low, none, true⟩]).inputs = [⟨.low, none, true⟩] := by decide
/-- Withdrawn and changed: refused, also in a reset; the ignored seed lanes changed, or the command held in a reset: not refused. -/
theorem witness_OnlyBrokenHandshakesRefused :
    (∀ i ∈ [⟨RstLevel.low, none, false⟩, presents ⟨6#3, 0#256⟩, ⟨.during 0, none, true⟩, ⟨.high, none, false⟩],
      refusal (step { driving State.reset [i] with waiting := some ⟨1#3, 0#256⟩ }) = some .handshakeBroken)
    ∧ ∀ i ∈ [presents ⟨1#3, 7#256⟩, ⟨RstLevel.high, some ⟨1#3, 0#256⟩, false⟩],
      refusal (step { driving State.reset [i] with waiting := some ⟨1#3, 0#256⟩ }) = none := by decide
/-- Idle machines, and the first and the last `k` of a script of two commands. -/
theorem witness_PortsRefineTransactions :
    State.reset.Idle ∧ (seededWith w1234).Idle ∧ 0 < [Instr.next, .jump].length ∧ 1 < [Instr.next, .jump].length := by decide
theorem witness_ZeroIsTheOnlyPreimageOfZero :
    (seededWith Words.zero).seeded = true ∧ (seededWith Words.zero).words = Words.zero
    ∧ transition Words.zero = Words.zero := by decide
/-- `s[1]` = 0 with other words set, seeded and not. -/
theorem witness_NextEffectAndFrame :
    (seededWith w1234).seeded = true ∧ (unseededWith w1234).seeded = false ∧ (Words.mk 1#64 0#64 1#64 1#64).s1 = 0#64 := by decide
theorem witness_NextSequence : (seededWith w1234).seeded = true := by decide
theorem witness_CoreArithmeticLaws : 0 < 63 ∧ 63 < 64 ∧ 0 < 1 ∧ 1 < 64 ∧ 0 < 64 := by decide
theorem witness_RneRoundsToNearestEven :
    1 ≤ 24 ∧ bitlen (2 ^ 24 - 1) ≤ 24 ∧ 24 < bitlen (2 ^ 24 + 1) ∧ 1 ≤ 1 ∧ bitlen 0 ≤ 1 ∧ 1 < bitlen 3 := by decide +kernel
/-- The least and the greatest numerators of both formats. -/
theorem witness_FpencStandsForTheQuotient :
    (0 ≤ 2 ^ 24 ∧ 2 ^ (bitlen 0 - 24) ∣ 0) ∧ (1 ≤ 2 ^ 32 ∧ 32 < 127 ∧ 2 ^ (bitlen 1 - 24) ∣ 1)
    ∧ (2 ^ 32 ≤ 2 ^ 32 ∧ 2 ^ (bitlen (2 ^ 32) - 24) ∣ 2 ^ 32)
    ∧ (1 ≤ 2 ^ 64 ∧ 64 < 1023 ∧ 2 ^ (bitlen 1 - 53) ∣ 1) ∧ (2 ^ 64 ≤ 2 ^ 64 ∧ 2 ^ (bitlen (2 ^ 64) - 53) ∣ 2 ^ 64) := by
  decide +kernel
theorem witness_ScalersDrawOneWordLikeNext : (seededWith w1234).seeded = true ∧ Instr.f64cc ∈ [Instr.f32co, .f32cc, .f64co, .f64cc] := by
  decide
/-- Words `s[1]` whose output word lies at the bounds of the clauses: below `2^40`, `2^40`, and from `0xFFFFFF0000000000` on. -/
theorem witness_F32COResult :
    (unseededWith w1234).seeded = false ∧ (seededWith ⟨1#64, 0#64, 0#64, 0#64⟩).seeded = true
    ∧ out ⟨0#64, 0x4FBBBBBBC71C71C7#64, 0#64, 0#64⟩ = 0xFFFFFFFFFF#64
    ∧ out ⟨0#64, 0x000B60B600000000#64, 0#64, 0#64⟩ = 0xFFFFFF0000000000#64 := by decide
/-- The bounds of the clauses of F32CC: `n` = 0, 1, `0xFFFFFF7F` and `0xFFFFFF80`, and `n` just under `2^24`. -/
theorem witness_F32CCResult :
    (unseededWith w1234).seeded = false ∧ (seededWith w1234).seeded = true
    ∧ out ⟨0#64, 0x83111111111C71C7#64, 0#64, 0#64⟩ = 0xFFFFFFFF#64
    ∧ out ⟨0#64, 0x3349F49F4A000000#64, 0#64, 0#64⟩ = 0x100000000#64
    ∧ out ⟨0#64, 0x83111C71C71C71C7#64, 0#64, 0#64⟩ = 0xFFFFFFFFFFFFFF#64
    ∧ out ⟨0#64, 0x1CCCCCCCC71C71C7#64, 0#64, 0#64⟩ = 0xFFFFFF7FFFFFFFFF#64
    ∧ out ⟨0#64, 0xCD05B05B00000000#64, 0#64, 0#64⟩ = 0xFFFFFF8000000000#64 := by decide
/-- The bounds of the clauses of F64CO. -/
theorem witness_F64COResult :
    (unseededWith w1234).seeded = false ∧ (seededWith w1234).seeded = true
    ∧ out ⟨0#64, 0xB616C16C16C16C17#64, 0#64, 0#64⟩ = 0x7FF#64
    ∧ out ⟨0#64, 0x99B05B05B05B05B0#64, 0#64, 0#64⟩ = 0xFFFFFFFFFFFFF800#64 := by decide
/-- The bounds of the clauses of F64CC. -/
theorem witness_F64CCResult :
    (unseededWith w1234).seeded = false ∧ (seededWith w1234).seeded = true
    ∧ out ⟨0#64, 0x4FB05C71C71C71C7#64, 0#64, 0#64⟩ = 0x1FFFFFFFFFFFFF#64
    ∧ out ⟨0#64, 0x1C9F49F49F49F49F#64, 0#64, 0#64⟩ = 0xFFFFFFFFFFFFFBFF#64
    ∧ out ⟨0#64, 0xCCD82D82D82D82D8#64, 0#64, 0#64⟩ = 0xFFFFFFFFFFFFFC00#64 := by decide
/-- The bounds of `n` in the clauses on the result sets of F32CO and F64CO. -/
theorem witness_ScalerResultSets : 0 < 2 ^ 24 ∧ 2 ^ 24 - 1 < 2 ^ 24 ∧ 0 < 2 ^ 53 ∧ 2 ^ 53 - 1 < 2 ^ 53 := by decide
theorem witness_ScalersStayInRange : (seededWith w1234).seeded = true := by decide
/-- Both clauses of each reading: a tie down to even, and none (96_test_vectors_scalers_jump.md 4.4). -/
theorem witness_RoundingReadingsDifferAtTies :
    (24 < bitlen 0x01000001 ∧ 0x01000001 % 2 ^ (bitlen 0x01000001 - 24) = 2 ^ (bitlen 0x01000001 - 24 - 1)
      ∧ 0x01000001 / 2 ^ (bitlen 0x01000001 - 24) % 2 = 0)
    ∧ ¬24 < bitlen 5
    ∧ (53 < bitlen 0x8000000000000400 ∧ 0x8000000000000400 % 2 ^ (bitlen 0x8000000000000400 - 53) = 2 ^ (bitlen 0x8000000000000400 - 53 - 1)
      ∧ 0x8000000000000400 / 2 ^ (bitlen 0x8000000000000400 - 53) % 2 = 0)
    ∧ ¬53 < bitlen 5 := by decide +kernel
theorem witness_JumpSumsTheIterates : (seededWith w1234).seeded = true := by decide
theorem witness_JumpEffectAndFrame : (unseededWith w1234).seeded = false ∧ (seededWith w1234).seeded = true := by decide
theorem witness_JumpMakes256Transitions : (seededWith Words.zero).seeded = true := by decide
theorem witness_JumpIsLinearAndCommutes : (seededWith w1234).seeded = true := by decide
theorem witness_JumpIsTwoPow128Transitions : (seededWith w1234).seeded = true := by decide
theorem witness_JumpIsBijective : (seededWith w1234).seeded = true := by decide
/-- Both errors occur (the premise of ErrorsChangeNothing, and the last clause of ErrorCodesNameTheirCause). -/
theorem witness_ErrorsChangeNothing :
    view (exec .reserved (seededWith w1234)) = some (w1234, true, some ⟨.illegalCmd, 0#64⟩, 0)
    ∧ view (exec .jump (unseededWith w1234)) = some (w1234, false, some ⟨.notSeeded, 0#64⟩, 0) := by decide
theorem witness_ErrorCodesNameTheirCause :
    rspErrO { State.reset with rsp := some ⟨.illegalCmd, 0#64⟩ } = 1#2 ∧ rspErrO { State.reset with rsp := some ⟨.notSeeded, 0#64⟩ } = 2#2 := by
  decide
theorem witness_UnseededReadersRefused :
    readsState .next = true ∧ readsState .jump = true ∧ readsState .reserved = false
    ∧ readsState (.seed (Vector.replicate 32 0#8)) = false ∧ (unseededWith w1234).seeded = false ∧ (seededWith w1234).seeded = true
    ∧ (port (seededWith w1234)).rst = .low ∧ flags (step (seededWith w1234)) = some (true, false, none, 0) := by decide
theorem witness_SeededCommandsNeverFail : Instr.jump ≠ .reserved ∧ (seededWith w1234).seeded = true := by decide
/-- One step for each clause: a seeded machine stays seeded, SEED seeds, and each kind of reset clears. -/
theorem witness_OnlyResetClearsSeeded :
    flags (step (driving (seededWith w1234) [presents ⟨7#3, 0#256⟩])) = some (true, true, some ⟨.illegalCmd, 0#64⟩, 0)
    ∧ flags (step (driving State.reset [presents ⟨0#3, 0#256⟩])) = some (true, true, some ⟨.ok, 0#64⟩, 0)
    ∧ flags (step (driving (seededWith w1234) [⟨.high, none, false⟩])) = some (false, false, none, 0)
    ∧ flags (step (driving (seededWith w1234) [⟨.during 0, none, false⟩])) = some (false, false, none, 0) := by
  refine ⟨?_, ?_, ?_, ?_⟩ <;> decide +kernel
/-- Reset held high, and reset inside a command at both ends of its transitions, inside a SEED and inside a refused command, idle with no
command, and with a response waiting. -/
theorem witness_ResetAbandonsEverything :
    ((port (driving State.reset [⟨.high, none, false⟩])).rst = .high
      ∧ handshakeBroken (driving State.reset [⟨.high, none, false⟩]) = false)
    ∧ (∀ k ∈ [0, 256, 257], (port (driving (seededWith w1234) [⟨.during k, some ⟨6#3, 0#256⟩, false⟩])).rst = .during k
        ∧ handshakeBroken (driving (seededWith w1234) [⟨.during k, some ⟨6#3, 0#256⟩, false⟩]) = false)
    ∧ flags (step (driving (seededWith w1234) [⟨.during 257, some ⟨6#3, 0#256⟩, false⟩])) = some (false, false, none, 256)
    ∧ flags (step (driving (seededWith w1234) [⟨.during 3, some ⟨0#3, 0#256⟩, false⟩])) = some (false, false, none, 0)
    ∧ flags (step (driving (unseededWith w1234) [⟨.during 3, some ⟨6#3, 0#256⟩, false⟩])) = some (false, false, none, 0)
    ∧ flags (step (driving (seededWith w1234) [⟨.during 3, none, false⟩])) = some (false, false, none, 0)
    ∧ flags (step { driving (seededWith w1234) [⟨.during 3, none, false⟩] with busy := true, rsp := some ⟨.ok, 1#64⟩ })
        = some (false, false, none, 0) := by
  refine ⟨?_, ?_, ?_, ?_, ?_, ?_, ?_⟩ <;> decide +kernel
/-- With nothing waiting and with the same command waiting; the next sample withdraws, changes, or holds the command. -/
theorem witness_CommandPresentedInResetIsHeld :
    (∀ w ∈ [none, some ⟨6#3, 0#256⟩], ∀ i ∈ [⟨RstLevel.low, none, false⟩, ⟨.high, none, false⟩, presents ⟨1#3, 0#256⟩],
      refusal (Host.Core.run Sys2Proof.core 2
        { driving (seededWith w1234) [⟨.high, some ⟨6#3, 0#256⟩, false⟩, i] with waiting := w }) = some .handshakeBroken)
    ∧ flags (Host.Core.run Sys2Proof.core 2 (driving (seededWith w1234) [⟨.high, some ⟨6#3, 0#256⟩, false⟩, presents ⟨6#3, 0#256⟩]))
        = some (false, true, some ⟨.notSeeded, 0#64⟩, 0) := by
  refine ⟨?_, ?_⟩ <;> decide +kernel
theorem witness_StateOutputShowsTheWords : (seededWith wRx).seeded = true ∧ (seededWith wRx).busy = false := by decide
/-- The seeded zero state, and steps of it that the second clause is about: NEXT, and a SEED that waits because the block is busy. -/
theorem witness_ZeroStateIsAbsorbing :
    readsState .f64cc = true ∧ (seededWith Words.zero).seeded = true ∧ (seededWith Words.zero).words = Words.zero
    ∧ view (step (driving (seededWith Words.zero) [presents ⟨1#3, 0#256⟩])) = some (Words.zero, true, some ⟨.ok, 0#64⟩, 1)
    ∧ view (step { driving (seededWith Words.zero) [presents ⟨0#3, 1#256⟩] with busy := true, rsp := some ⟨.ok, 0#64⟩ })
        = some (Words.zero, true, some ⟨.ok, 0#64⟩, 0)
    ∧ decode ⟨1#3, 0#256⟩ ≠ .seed (Vector.replicate 32 0#8) := by decide +kernel
/-- A non-zero seeded state that one step makes all zero: an accepted SEED of zero bytes. -/
theorem witness_NonzeroStateStaysNonzero :
    (seededWith w1234).words ≠ Words.zero
    ∧ view (step (driving (seededWith w1234) [presents ⟨0#3, 0#256⟩])) = some (Words.zero, true, some ⟨.ok, 0#64⟩, 0) := by
  decide +kernel
/-- A reachable busy state with an error response meets the invariant and steps. -/
theorem witness_StepKeepsInv :
    (let s := { driving State.reset [⟨.low, none, true⟩] with busy := true, rsp := some ⟨.notSeeded, 0#64⟩, errorMark := true };
      s.Inv ∧ flags (step s) = some (false, false, none, 0)) ∧ (seededWith w1234).Inv := by decide
/-- Two unseeded machines with different words, accumulators, index and counts; two seeded ones, idle and busy with a response, that step. -/
theorem witness_UnspecifiedStateNeverShows :
    State.Alike State.reset { State.powerOn wRx w1234 9#8 with stepPulses := 5, errorMark := true, now := 7 }
    ∧ State.Alike (seededWith w1234) { seededWith w1234 with acc := wRx } ∧ (seededWith w1234).seeded = true
    ∧ (seededWith w1234).busy = false ∧ flags (step (seededWith w1234)) = some (true, false, none, 0)
    ∧ rspValidO { seededWith w1234 with busy := true, rsp := some ⟨.ok, 1#64⟩ } = true := by decide
/-- Two idle machines that differ in their words and in SEEDED. -/
theorem witness_SeedDeterminesEverything : State.reset.Idle ∧ { seededWith w1234 with acc := wRx, now := 3 }.Idle := by decide

end Sys2Proof.Tests
end

