-- ==== Sys2Proof/Proofs/Rounding.lean ====
section
/-! PROOF. Family scope: `rne` rounds to the nearest multiple of the kept unit, ties to even (spec/00_scope.md R8). -/

namespace Sys2Proof.Machine

/-- `n / 2^sh` rounded to the nearest integer, ties to even: the kept bits of `rne`, see `rne_eq_roundedQuotient_mul` (R8). -/
def roundedQuotient (n sh : Nat) : Nat :=
  if n % 2 ^ sh > 2 ^ (sh - 1) ∨ (n % 2 ^ sh = 2 ^ (sh - 1) ∧ n / 2 ^ sh % 2 = 1) then n / 2 ^ sh + 1 else n / 2 ^ sh

theorem rne_eq_self {n p : Nat} (h : bitlen n ≤ p) : rne n p = n := by
  by_cases hn : n = 0
  · simp [rne, hn]
  · simp [rne, hn, h]

theorem rne_eq_roundedQuotient_mul {n p : Nat} (h : p < bitlen n) :
    rne n p = roundedQuotient n (bitlen n - p) * 2 ^ (bitlen n - p) := by
  have hn : n ≠ 0 := by rintro rfl; simp at h
  simp only [rne, roundedQuotient, if_neg hn, if_neg (not_le.2 h)]
  split <;> rfl

/-- What rounding can do: it keeps the quotient when the remainder is at most one half, or takes the next one when it is at least one
half; at one half exactly, the one it takes is even. -/
theorem roundedQuotient_cases (n sh : Nat) :
    (roundedQuotient n sh = n / 2 ^ sh ∧ n % 2 ^ sh ≤ 2 ^ (sh - 1)
      ∧ (n % 2 ^ sh = 2 ^ (sh - 1) → roundedQuotient n sh % 2 = 0))
    ∨ (roundedQuotient n sh = n / 2 ^ sh + 1 ∧ 2 ^ (sh - 1) ≤ n % 2 ^ sh
      ∧ (n % 2 ^ sh = 2 ^ (sh - 1) → roundedQuotient n sh % 2 = 0)) := by
  unfold roundedQuotient
  split
  case isTrue hup => exact .inr ⟨rfl, by omega, by omega⟩
  case isFalse hdown => exact .inl ⟨rfl, by omega, by omega⟩

/-- The rounded number lies within half a unit of `n` on either side, and at half a unit exactly the quotient taken is even. -/
theorem roundedQuotient_mul_nearest {n sh : Nat} (hsh : 0 < sh) :
    2 * (roundedQuotient n sh * 2 ^ sh - n) ≤ 2 ^ sh ∧ 2 * (n - roundedQuotient n sh * 2 ^ sh) ≤ 2 ^ sh
    ∧ ((2 * (roundedQuotient n sh * 2 ^ sh - n) = 2 ^ sh ∨ 2 * (n - roundedQuotient n sh * 2 ^ sh) = 2 ^ sh) →
        roundedQuotient n sh % 2 = 0) := by
  have hhalf : 2 ^ sh = 2 * 2 ^ (sh - 1) := by rw [mul_comm, Nat.pow_pred_mul hsh]
  have hn : n / 2 ^ sh * 2 ^ sh + n % 2 ^ sh = n := Nat.div_add_mod' ..
  have hr : n % 2 ^ sh < 2 ^ sh := Nat.mod_lt _ (by positivity)
  rcases roundedQuotient_cases n sh with ⟨hq, hle, heven⟩ | ⟨hq, hge, heven⟩
  · have hmul : roundedQuotient n sh * 2 ^ sh = n / 2 ^ sh * 2 ^ sh := by rw [hq]
    exact ⟨by omega, by omega, fun htie => heven (by omega)⟩
  · have hmul : roundedQuotient n sh * 2 ^ sh = n / 2 ^ sh * 2 ^ sh + 2 ^ sh := by rw [hq, Nat.succ_mul]
    exact ⟨by omega, by omega, fun htie => heven (by omega)⟩

/-- The kept bits number at most `p`, or rounding carried into the next power of two. -/
theorem roundedQuotient_le {n p : Nat} (h : p < bitlen n) : roundedQuotient n (bitlen n - p) ≤ 2 ^ p := by
  have hq : n / 2 ^ (bitlen n - p) < 2 ^ p := by
    rw [Nat.div_lt_iff_lt_mul (by positivity), ← pow_add, Nat.add_sub_cancel' h.le]
    exact lt_two_pow_bitlen n
  rcases roundedQuotient_cases n (bitlen n - p) with ⟨heq, -, -⟩ | ⟨heq, -, -⟩ <;> omega

/-- Settles O24: the kept bits are a rounded quotient, which is nearest with ties to even and at most `2^p`. -/
theorem rneRoundsToNearestEven : Obligations.RneRoundsToNearestEven := by
  intro n p _
  refine ⟨rne_eq_self, fun h => ⟨_, roundedQuotient n (bitlen n - p), rfl, rne_eq_roundedQuotient_mul h, ?_⟩⟩
  rw [rne_eq_roundedQuotient_mul h]
  obtain ⟨hover, hunder, heven⟩ := roundedQuotient_mul_nearest (n := n) (Nat.sub_pos_of_lt h)
  refine ⟨hover, hunder, heven, (roundedQuotient_le h).lt_or_eq.imp_right fun hcarry => ?_⟩
  rw [hcarry, ← pow_add, Nat.add_sub_cancel' h.le]

end Sys2Proof.Machine
end

