-- ==== Sys2Proof/Proofs/FloatEncoding.lean ====
section
/-! PROOF. Family scope: the bit pattern that `fpenc` gives stands for exactly `m / 2^k` (spec/00_scope.md R9). The lemmas hold for every
format: `p` significant bits and `ebits` exponent bits with a bias below the exponent of the infinities. -/

namespace Sys2Proof.Machine

/-- `m` scaled by a power of two to `p` bits with the leading 1: `fpenc` stores it without that bit, see `toNat_fpenc` (R9). -/
def significand (m p : Nat) : Nat :=
  if bitlen m ≤ p then m * 2 ^ (p - bitlen m) else m / 2 ^ (bitlen m - p)

/-- No bit of `m` is lost when `m` has at most `p` significant bits. -/
theorem significand_mul {m p : Nat} (hdvd : 2 ^ (bitlen m - p) ∣ m) : significand m p * 2 ^ bitlen m = m * 2 ^ p := by
  unfold significand
  split
  case isTrue h => rw [mul_assoc, ← pow_add, Nat.sub_add_cancel h]
  case isFalse h =>
    have hlen : 2 ^ bitlen m = 2 ^ (bitlen m - p) * 2 ^ p := by rw [← pow_add]; congr 1; omega
    rw [hlen, ← mul_assoc, Nat.div_mul_cancel hdvd]

/-- The leading 1 is at position `p - 1`. -/
theorem le_significand {m p : Nat} (hm : m ≠ 0) (hp : 0 < p) : 2 ^ (p - 1) ≤ significand m p := by
  have hlen := bitlen_pos hm
  unfold significand
  split
  case isTrue h =>
    calc 2 ^ (p - 1) = 2 ^ (bitlen m - 1) * 2 ^ (p - bitlen m) := by rw [← pow_add]; congr 1; omega
      _ ≤ m * 2 ^ (p - bitlen m) := Nat.mul_le_mul_right _ (two_pow_bitlen_le hm)
  case isFalse h =>
    rw [Nat.le_div_iff_mul_le (by positivity), ← pow_add, show p - 1 + (bitlen m - p) = bitlen m - 1 by omega]
    exact two_pow_bitlen_le hm

theorem significand_lt (m p : Nat) : significand m p < 2 ^ p := by
  unfold significand
  split
  case isTrue h =>
    calc m * 2 ^ (p - bitlen m) < 2 ^ bitlen m * 2 ^ (p - bitlen m) :=
          Nat.mul_lt_mul_of_pos_right (lt_two_pow_bitlen m) (by positivity)
      _ = 2 ^ p := by rw [← pow_add, Nat.add_sub_cancel' h]
  case isFalse h =>
    rw [Nat.div_lt_iff_lt_mul (by positivity), ← pow_add, Nat.add_sub_cancel' (by omega)]
    exact lt_two_pow_bitlen m

/-- The significand without its leading 1 fits the fraction field. -/
theorem significand_sub_lt {m p : Nat} (hm : m ≠ 0) (hp : 0 < p) : significand m p - 2 ^ (p - 1) < 2 ^ (p - 1) := by
  have hle := le_significand hm hp
  have hlt := significand_lt m p
  rw [← Nat.pow_pred_mul hp] at hlt
  omega

/-- The stored fraction is the significand without its leading 1. -/
theorem significand_mod {m p : Nat} (hm : m ≠ 0) (hp : 0 < p) :
    significand m p % 2 ^ (p - 1) = significand m p - 2 ^ (p - 1) := by
  rw [Nat.mod_eq_sub_mod (le_significand hm hp), Nat.mod_eq_of_lt (significand_sub_lt hm hp)]

/-- The biased exponent of `m / 2^k`, as a natural number: `fpenc` stores it when `k < bias`, see `toNat_fpenc` (R9). -/
def biasedExponent (m k bias : Nat) : Nat := bias + bitlen m - 1 - k

/-- The range of the biased exponent of a positive number of at most 1 (R9, the range note). -/
theorem biasedExponent_bounds {m k : Nat} (bias : Nat) (hm : m ≠ 0) (hmk : m ≤ 2 ^ k) :
    bias - k ≤ biasedExponent m k bias ∧ biasedExponent m k bias ≤ bias := by
  have hpos := bitlen_pos hm
  have hlen : bitlen m ≤ k + 1 := (bitlen_le_iff m (k + 1)).2 (by rw [pow_succ]; have := Nat.two_pow_pos k; omega)
  unfold biasedExponent
  omega

@[simp] theorem fpenc_zero (k p ebits bias : Nat) : fpenc 0 k p ebits bias = 0#_ := by simp [fpenc]

/-- The fields of a pattern: sign 0, the biased exponent, and the significand without its leading 1 (R9). -/
theorem toNat_fpenc {m k p ebits bias : Nat} (hm : m ≠ 0) (hp : 0 < p) (hk : k < bias)
    (hexp : biasedExponent m k bias < 2 ^ ebits) :
    (fpenc m k p ebits bias).toNat = biasedExponent m k bias * 2 ^ (p - 1) + (significand m p - 2 ^ (p - 1)) := by
  have hlen := bitlen_pos hm
  have he : (bitlen m : Int) - 1 - k + bias = (biasedExponent m k bias : Nat) := by unfold biasedExponent; omega
  have hfrac : (if bitlen m ≤ p then m * 2 ^ (p - bitlen m) % 2 ^ (p - 1) else m / 2 ^ (bitlen m - p) % 2 ^ (p - 1))
      = significand m p - 2 ^ (p - 1) := by
    rw [← significand_mod hm hp, significand]
    split <;> rfl
  have hlt := significand_sub_lt hm hp
  simp only [fpenc, if_neg hm, he, hfrac, BitVec.ofInt_natCast, BitVec.toNat_append, BitVec.toNat_ofNat,
    Nat.mod_eq_of_lt hexp, Nat.mod_eq_of_lt hlt]
  rw [← Nat.shiftLeft_add_eq_or_of_lt hlt, Nat.shiftLeft_eq]
  simp

/-- A pattern with sign 0 whose exponent is neither 0 nor all ones stands for a normal number (R68). -/
theorem fpValue_normal {p ebits bias e f : Nat} (hf : f < 2 ^ (p - 1)) (he : 0 < e) (hmax : e < 2 ^ ebits - 1) :
    fpValue p ebits bias (e * 2 ^ (p - 1) + f)
      = some (((2 ^ (p - 1) + f : Nat) : ℚ) * 2 ^ ((e : Int) - bias - (p - 1 : Nat))) := by
  have hexp : (e * 2 ^ (p - 1) + f) / 2 ^ (p - 1) = e := by
    rw [mul_comm, Nat.mul_add_div (by positivity), Nat.div_eq_of_lt hf, add_zero]
  have hfrac : (e * 2 ^ (p - 1) + f) % 2 ^ (p - 1) = f := by
    rw [Nat.mul_add_mod', Nat.mod_eq_of_lt hf]
  have hfield : e % 2 ^ ebits = e := Nat.mod_eq_of_lt (by omega)
  have hsign : e / 2 ^ ebits = 0 := Nat.div_eq_of_lt (by omega)
  simp [fpValue, pow_add, ← Nat.div_div_eq_div_mul, hexp, hfrac, hfield, hsign, hmax.ne, he.ne']

/-- The pattern stands for exactly `m / 2^k` (R9). -/
theorem fpValue_fpenc {m k p ebits bias : Nat} (hp : 0 < p) (hbias : bias < 2 ^ ebits - 1) (hk : k < bias)
    (hmk : m ≤ 2 ^ k) (hdvd : 2 ^ (bitlen m - p) ∣ m) :
    fpValue p ebits bias (fpenc m k p ebits bias).toNat = some (scaled m k) := by
  by_cases hm : m = 0
  case pos =>
    have hmax : 0 ≠ 2 ^ ebits - 1 := by omega
    simp [hm, fpValue, scaled, hmax]
  case neg =>
    obtain ⟨hlow, hhigh⟩ := biasedExponent_bounds bias hm hmk
    have hscale : ((biasedExponent m k bias : Nat) : Int) - bias - (p - 1 : Nat) = (bitlen m : Int) - (p + k : Nat) := by
      have := bitlen_pos hm
      unfold biasedExponent
      omega
    have hexact : (significand m p : ℚ) * 2 ^ bitlen m = m * 2 ^ p := mod_cast significand_mul hdvd
    rw [toNat_fpenc hm hp hk (by omega), fpValue_normal (significand_sub_lt hm hp) (by omega) (by omega), hscale,
      Nat.add_sub_cancel' (le_significand hm hp), zpow_sub₀ two_ne_zero, zpow_natCast, zpow_natCast, scaled, ← mul_div_assoc, hexact,
      mul_comm (m : ℚ), pow_add, mul_div_mul_left _ _ (by positivity)]

/-- Above the fraction a pattern holds the biased exponent alone: the sign bit is 0 (R9). -/
theorem toNat_fpenc_div {m k p ebits bias : Nat} (hm : m ≠ 0) (hp : 0 < p) (hk : k < bias)
    (hexp : biasedExponent m k bias < 2 ^ ebits) :
    (fpenc m k p ebits bias).toNat / 2 ^ (p - 1) = biasedExponent m k bias := by
  rw [toNat_fpenc hm hp hk hexp, mul_comm, Nat.mul_add_div (by positivity), Nat.div_eq_of_lt (significand_sub_lt hm hp), add_zero]

/-- What `fpenc` gives in any format: the exact value, the pattern 0 for 0, and the range of the biased exponent (R9). -/
theorem fpenc_spec {m k p ebits bias : Nat} (hp : 0 < p) (hbias : bias < 2 ^ ebits - 1) (hk : k < bias)
    (hmk : m ≤ 2 ^ k) (hdvd : 2 ^ (bitlen m - p) ∣ m) :
    fpValue p ebits bias (fpenc m k p ebits bias).toNat = some (scaled m k)
    ∧ (m = 0 → (fpenc m k p ebits bias).toNat = 0)
    ∧ (m ≠ 0 → bias - k ≤ (fpenc m k p ebits bias).toNat / 2 ^ (p - 1)
      ∧ (fpenc m k p ebits bias).toNat / 2 ^ (p - 1) ≤ bias) := by
  refine ⟨fpValue_fpenc hp hbias hk hmk hdvd, by rintro rfl; simp, fun hm => ?_⟩
  have hbounds := biasedExponent_bounds bias hm hmk
  rwa [toNat_fpenc_div hm hp hk (by omega)]

/-- Settles O25: both formats are instances of `fpenc_spec`. -/
theorem fpencStandsForTheQuotient : Obligations.FpencStandsForTheQuotient := by
  refine ⟨fun m k hmk hk hdvd => ?_, fun m k hmk hk hdvd => ?_⟩
  · exact fpenc_spec (p := 24) (ebits := 8) (by omega) (by omega) hk hmk hdvd
  · exact fpenc_spec (p := 53) (ebits := 11) (by omega) (by omega) hk hmk hdvd

end Sys2Proof.Machine
end

