-- ==== Sys2Proof/Proofs/ExecEffects.lean ====
section
/-! PROOF. Family state: what performing a command leaves in each field of the state, for every command at once (spec/10_state.md R12,
R14, spec/60_exceptions.md R93, R104). -/

namespace Sys2Proof.Machine

variable {s t : State} {i : Instr}

section Drawn

variable (d : Word) (s : State)

@[simp] theorem drawnWith_seeded : (drawnWith d s).seeded = s.seeded := rfl
@[simp] theorem drawnWith_busy : (drawnWith d s).busy = s.busy := rfl
@[simp] theorem drawnWith_rsp : (drawnWith d s).rsp = some ⟨.ok, d⟩ := rfl
@[simp] theorem drawnWith_waiting : (drawnWith d s).waiting = s.waiting := rfl
@[simp] theorem drawnWith_inputs : (drawnWith d s).inputs = s.inputs := rfl
@[simp] theorem drawnWith_stepPulses : (drawnWith d s).stepPulses = s.stepPulses + 1 := rfl
@[simp] theorem drawnWith_errorMark : (drawnWith d s).errorMark = s.errorMark := rfl

end Drawn

/-! ## The jump engine -/

/-- Every iteration of the engine pulses `step_o` once (R83, R104). -/
theorem jumpIterations_pulses (n : Nat) (e : JumpEngine) : (jumpIterations n e).pulses = e.pulses + n := by
  induction n with
  | zero => rfl
  | succ n ih => rw [jumpIterations_succ_last, jumpIteration_pulses, ih, Nat.add_assoc]

/-- The engine does not read the count of the pulses. -/
theorem jumpIterations_acc_congr (n : Nat) (w a : Words) (j : BitVec 8) (p q : Nat) :
    (jumpIterations n ⟨w, a, j, p⟩).acc = (jumpIterations n ⟨w, a, j, q⟩).acc := by
  induction n generalizing w a j p q with
  | zero => rfl
  | succ n ih => exact ih ..

/-- The words after a JUMP depend on the words before it alone (R81, R84). -/
theorem jumped_words_congr (h : s.words = t.words) : (jumped s).words = (jumped t).words := by
  rw [jumped_words, jumped_words, h]
  exact jumpIterations_acc_congr ..

/-- A JUMP pulses `step_o` 256 times (R85). -/
@[simp] theorem jumped_pulses (s : State) : (jumped s).stepPulses = s.stepPulses + 256 := by
  rw [jumped_stepPulses, jumpIterations_pulses, jumpIters_eq]

/-! ## One command -/

/-- The transitions of a command, read from its kind and SEEDED (R12). -/
theorem transitions_eq (i : Instr) (s : State) :
    transitions i s = if s.seeded = false then 0 else if i = .jump then 256 else if readsState i = true then 1 else 0 := by
  cases hs : s.seeded with
  | false => simp [transitions, hs]
  | true => cases i <;> simp [transitions, transitionsOf, readsState, hs]

/-- Every command answers a next state that presents a response (R46). -/
theorem exec_responds (i : Instr) (s : State) : ∃ t r, exec i s = .next t ∧ t.rsp = some r := by
  rcases exec_cases i s with ⟨m, -, h⟩ | ⟨-, h⟩ | ⟨-, -, h⟩ | ⟨-, -, h⟩ | ⟨-, -, -, d, h⟩ <;>
    exact ⟨_, _, h, rfl⟩

/-- The next state of a command is one of five: `exec_cases`, read backwards. -/
theorem exec_next_cases (h : exec i s = .next t) :
    (∃ m, i = .seed m ∧ t = respond 0#64 (setSeeded (loadWords (packSeed m) s)))
    ∨ (i = .reserved ∧ t = raise .illegalCmd s)
    ∨ (readsState i = true ∧ s.seeded = false ∧ t = raise .notSeeded s)
    ∨ (i = .jump ∧ s.seeded = true ∧ t = respond 0#64 (jumped s))
    ∨ (readsState i = true ∧ i ≠ .jump ∧ s.seeded = true ∧ ∃ d, t = drawnWith d s) := by
  simpa only [h, Host.Outcome.next.injEq] using exec_cases i s

/-- What no command touches: BUSY, the command port and what the host drives. -/
theorem exec_frame (h : exec i s = .next t) : t.busy = s.busy ∧ t.waiting = s.waiting ∧ t.inputs = s.inputs := by
  rcases exec_next_cases h with ⟨m, -, rfl⟩ | ⟨-, rfl⟩ | ⟨-, -, rfl⟩ | ⟨-, -, rfl⟩ | ⟨-, -, -, d, rfl⟩ <;>
    exact ⟨rfl, rfl, rfl⟩

/-- `step_o` pulses once for each transition of the command (R104). -/
theorem exec_stepPulses (h : exec i s = .next t) : t.stepPulses = s.stepPulses + transitions i s := by
  rw [transitions_eq]
  rcases exec_next_cases h with ⟨m, rfl, rfl⟩ | ⟨rfl, rfl⟩ | ⟨-, hs, rfl⟩ | ⟨rfl, hs, rfl⟩ | ⟨hi, hj, hs, d, rfl⟩
  · simp [readsState]
  · simp [readsState]
  · simp [hs]
  · simp [hs]
  · simp [hi, hj, hs]

/-- Only SEED sets SEEDED, and no command clears it (R14). -/
theorem exec_seeded (h : exec i s = .next t) : t.seeded = true ↔ s.seeded = true ∨ ∃ m, i = .seed m := by
  rcases exec_next_cases h with ⟨m, rfl, rfl⟩ | ⟨rfl, rfl⟩ | ⟨hi, hs, rfl⟩ | ⟨rfl, hs, rfl⟩ | ⟨-, -, hs, d, rfl⟩
  · simp
  · simp
  · have hseed : ∀ m, i ≠ .seed m := by rintro m rfl; cases hi
    simp [hs, hseed]
  · simp [hs]
  · simp [hs]

/-- The permanent mark records an error response, and nothing else sets it (R101). -/
theorem exec_errorMark (h : exec i s = .next t) : t.errorMark = (s.errorMark || t.rsp.any (·.err != .ok)) := by
  rcases exec_next_cases h with ⟨m, -, rfl⟩ | ⟨-, rfl⟩ | ⟨-, -, rfl⟩ | ⟨-, -, rfl⟩ | ⟨-, -, -, d, rfl⟩ <;> simp

/-- The response of a command fits the state it leaves (R93, R95). -/
theorem exec_responseFits (h : exec i s = .next t) : responseFits t t.rsp = true := by
  rcases exec_next_cases h with ⟨m, -, rfl⟩ | ⟨-, rfl⟩ | ⟨-, hs, rfl⟩ | ⟨-, hs, rfl⟩ | ⟨-, -, hs, d, rfl⟩
  · simp [responseFits]
  · simp [responseFits]
  · simp [responseFits, hs]
  · simp [responseFits, hs]
  · simp [responseFits, hs]

/-- Settles O47: a command pulses `step_o` once for each of its transitions, which its kind and SEEDED give. -/
theorem transitionCounts : Obligations.TransitionCounts := by
  intro i s
  obtain ⟨t, -, h, -⟩ := exec_responds i s
  exact ⟨t, transitions i s, h, exec_stepPulses h, transitions_eq i s⟩

/-! ## What a command reads -/

/-- NEXT and the scalers draw one word, each with a function of its own, the same in every state (R61, R67). -/
theorem exec_eq_drawWord (hi : readsState i = true) (hj : i ≠ .jump) : ∃ f, ∀ s, exec i s = drawWord f s := by
  cases i with
  | seed | reserved => cases hi
  | jump => exact absurd rfl hj
  | next => exact ⟨fun w => w, fun _ => rfl⟩
  | f32co => exact ⟨scaleF32CO, fun _ => rfl⟩
  | f32cc => exact ⟨scaleF32CC scalerRounding, fun _ => rfl⟩
  | f64co => exact ⟨scaleF64CO, fun _ => rfl⟩
  | f64cc => exact ⟨scaleF64CC scalerRounding, fun _ => rfl⟩

/-- A seeded command that reads the state answers alike, and leaves the same words, on the same words. -/
theorem exec_reader_congr (hi : readsState i = true) (hs : s.seeded = true) (ht : t.seeded = true) (hw : s.words = t.words) :
    ∃ s' t', exec i s = .next s' ∧ exec i t = .next t' ∧ s'.rsp = t'.rsp ∧ s'.words = t'.words := by
  by_cases hj : i = .jump
  case pos =>
    subst hj
    exact ⟨_, _, exec_jump_seeded hs, exec_jump_seeded ht, by simp, by simpa using jumped_words_congr hw⟩
  case neg =>
    obtain ⟨f, hf⟩ := exec_eq_drawWord hi hj
    exact ⟨_, _, (hf s).trans (drawWord_seeded f hs), (hf t).trans (drawWord_seeded f ht), by simp [hw], by simp [hw]⟩

/-- A command reads SEEDED and, only while SEEDED = 1, the state words: on states that agree in these it answers alike, and it leaves
states that agree in these. Words that agree while SEEDED = 0 go on agreeing. -/
theorem exec_congr (i : Instr) (hseeded : s.seeded = t.seeded) (hwords : s.seeded = true → s.words = t.words) :
    ∃ s' t', exec i s = .next s' ∧ exec i t = .next t' ∧ s'.rsp = t'.rsp ∧ s'.seeded = t'.seeded
      ∧ (s'.seeded = true → s'.words = t'.words) ∧ (s.words = t.words → s'.words = t'.words) := by
  cases hi : readsState i with
  | true =>
    cases hs : s.seeded with
    | true =>
      obtain ⟨s', t', hs', ht', hrsp, hw⟩ := exec_reader_congr hi hs (hseeded ▸ hs) (hwords hs)
      have hkept := (exec_seeded hs').2 (.inl hs)
      have hkept' := (exec_seeded ht').2 (.inl (hseeded ▸ hs))
      exact ⟨s', t', hs', ht', hrsp, hkept.trans hkept'.symm, fun _ => hw, fun _ => hw⟩
    | false =>
      exact ⟨_, _, exec_reader_unseeded hi hs, exec_reader_unseeded hi (hseeded ▸ hs), rfl, hseeded, hwords, id⟩
  | false =>
    cases i with
    | seed m => exact ⟨_, _, rfl, rfl, rfl, rfl, fun _ => rfl, fun _ => rfl⟩
    | reserved => exact ⟨_, _, rfl, rfl, rfl, hseeded, hwords, id⟩
    | next | f32co | f32cc | f64co | f64cc | jump => cases hi

end Sys2Proof.Machine
end

