-- ==== Sys2Proof/Proofs/StepEffects.lean ====
section
/-! PROOF. Family state: the transaction rule (spec/10_state.md R24), what one step can leave, and the invariant that every step keeps. -/

namespace Sys2Proof.Machine

variable {s t : State} {i : Inputs} {rest : List Inputs}

/-! ## One sample at the ports -/

theorem port_of_inputs (h : s.inputs = i :: rest) : port s = i := by
  simp [port, h]

/-- A host that goes on presenting what waits keeps the handshake (R115). -/
theorem handshakeBroken_of_held (h : s.waiting = none ∨ s.waiting = (port s).cmd) : handshakeBroken s = false := by
  rcases h with h | h <;> simp [handshakeBroken, h]

theorem transact_accepts {c : Command} (hrst : i.rst = .low) (hb : s.busy = false) (hc : i.cmd = some c) :
    transact i s = exec (decode c) (accept s) := by
  simp [transact, hrst, hb, hc]

theorem transact_busy (hrst : i.rst = .low) (hb : s.busy = true) :
    transact i s = .next (if i.rspReady && s.rsp.isSome then takeResponse { s with waiting := i.cmd }
      else { s with waiting := i.cmd }) := by
  simp [transact, hrst, hb]

/-- Settles O7: the handshake is kept, and the idle block accepts the command. -/
theorem stepRunsPresentedCommand : Obligations.StepRunsPresentedCommand := by
  intro s c r rest hb hw hin
  have hport := port_of_inputs hin
  have hkept : handshakeBroken s = false := handshakeBroken_of_held (by rwa [hport])
  rw [step_of_kept hkept, hport, transact_accepts (s := advance s) (c := c) rfl hb rfl]
  simp [accept, setBusy, advance, hin]

/-- Settles O8: the handshake is kept, and the busy block takes or holds its response. -/
theorem responseHeldUntilTaken : Obligations.ResponseHeldUntilTaken := by
  intro s resp i rest hb hrsp hin hrst hw
  have hport := port_of_inputs hin
  have hkept : handshakeBroken s = false := handshakeBroken_of_held (by rwa [hport])
  refine ⟨by simp [cmdReadyO, hb], by simp [rspValidO, hrsp], ?_⟩
  rw [step_of_kept hkept, hport, transact_busy (s := advance s) hrst hb]
  cases i.rspReady <;> simp [takeResponse, clearBusy, advance, hin, hrsp]

/-! ## What one step can leave -/

/-- Everything that a step which answers a next state has done, with its guard: a reset that accepts nothing, a command abandoned by a
reset, and, with no reset, the response taken, nothing but the ports moved on, or a command performed. -/
theorem step_next_cases (h : step s = .next t) :
    ((port s).rst ≠ .low ∧ ((port s).rst = .high ∨ s.busy = true ∨ (port s).cmd = none)
      ∧ t = resetEvent { advance s with waiting := (port s).cmd })
    ∨ (∃ k c, (port s).rst = .during k ∧ s.busy = false ∧ (port s).cmd = some c
      ∧ t = abandon k (decode c) (accept (advance s)))
    ∨ ((port s).rst = .low ∧ s.busy = true ∧ t = takeResponse { advance s with waiting := (port s).cmd })
    ∨ ((port s).rst = .low ∧ (s.busy = true ∨ (port s).cmd = none) ∧ t = { advance s with waiting := (port s).cmd })
    ∨ (∃ c, (port s).rst = .low ∧ s.busy = false ∧ (port s).cmd = some c
      ∧ exec (decode c) (accept (advance s)) = .next t) := by
  rcases step_cases s with ⟨-, hstep⟩ | ⟨-, hstep⟩
  · cases hstep.symm.trans h
  have htransact := hstep.symm.trans h
  rcases transact_cases (port s) (advance s) with ⟨hrst, hguard, heq⟩ | ⟨k, c, hrst, hb, hc, heq⟩ | ⟨hrst, hb, -, heq⟩
    | ⟨hrst, hb, -, heq⟩ | ⟨c, hrst, hb, hc, heq⟩ | ⟨hrst, hb, hc, heq⟩ <;>
    rw [heq] at htransact
  · cases htransact; exact .inl ⟨hrst, hguard, rfl⟩
  · cases htransact; exact .inr (.inl ⟨k, c, hrst, hb, hc, rfl⟩)
  · cases htransact; exact .inr (.inr (.inl ⟨hrst, hb, rfl⟩))
  · cases htransact; exact .inr (.inr (.inr (.inl ⟨hrst, .inl hb, rfl⟩)))
  · exact .inr (.inr (.inr (.inr ⟨c, hrst, hb, hc, htransact⟩)))
  · cases htransact; exact .inr (.inr (.inr (.inl ⟨hrst, .inr hc, by rw [hc]⟩)))

@[simp] theorem abandon_seeded (k : Nat) (c : Instr) (s : State) : (abandon k c s).seeded = false := rfl
@[simp] theorem abandon_busy (k : Nat) (c : Instr) (s : State) : (abandon k c s).busy = false := rfl
@[simp] theorem abandon_rsp (k : Nat) (c : Instr) (s : State) : (abandon k c s).rsp = none := rfl

/-- Settles O48: of what a step can do, a reset alone clears SEEDED, and a performed SEED alone sets it. -/
theorem onlyResetClearsSeeded : Obligations.OnlyResetClearsSeeded := by
  intro s t h
  rcases step_next_cases h with ⟨hrst, -, rfl⟩ | ⟨k, c, hrst, -, -, rfl⟩ | ⟨hrst, -, rfl⟩ | ⟨hrst, -, rfl⟩
    | ⟨c, hrst, hb, hc, hexec⟩
  · simp [hrst]
  · simp [hrst]
  · exact ⟨fun _ hs => hs, fun hs ht => by simp [hs] at ht, fun hne => absurd hrst hne⟩
  · exact ⟨fun _ hs => hs, fun hs ht => by simp [hs] at ht, fun hne => absurd hrst hne⟩
  · have hseeded := exec_seeded hexec
    refine ⟨fun _ hs => hseeded.2 (.inl hs), fun hs ht => ⟨hb, c, ?_⟩, fun hne => absurd hrst hne⟩
    obtain hkept | ⟨m, hm⟩ := hseeded.1 ht
    · cases hs.symm.trans hkept
    · exact ⟨m, hc, hm⟩

/-! ## The invariant -/

/-- The invariant holds of an idle block that presents no response. -/
theorem inv_of_idle (hb : s.busy = false) (hrsp : s.rsp = none) : s.Inv := by
  simp [State.Inv, responseFits, hb, hrsp]

/-- The invariant speaks of BUSY, the response, SEEDED and the permanent mark alone. -/
theorem inv_of_same_flags (hs : s.Inv) (hb : t.busy = s.busy) (hrsp : t.rsp = s.rsp) (hseeded : t.seeded = s.seeded)
    (hmark : t.errorMark = s.errorMark) : t.Inv := by
  obtain ⟨hbusy, hfits⟩ := hs
  refine ⟨by rw [hb, hrsp, hbusy], ?_⟩
  rw [← hfits, hrsp]
  simp only [responseFits, hseeded, hmark]

/-- A performed command leaves the invariant, from any accepted state. -/
theorem exec_inv {c : Instr} (hb : s.busy = true) (h : exec c s = .next t) : t.Inv := by
  obtain ⟨hbusy, -, -⟩ := exec_frame h
  obtain ⟨t', r, h', hr⟩ := exec_responds c s
  cases h.symm.trans h'
  exact ⟨by rw [hbusy, hb, hr]; rfl, exec_responseFits h⟩

/-- Settles O55: a reset, an abandoned command and a taken response leave an idle block, a held response was fit before, and a performed
command leaves a fitting one. -/
theorem stepKeepsInv : Obligations.StepKeepsInv := by
  intro s t hs h
  rcases step_next_cases h with ⟨-, -, rfl⟩ | ⟨k, c, -, -, -, rfl⟩ | ⟨-, -, rfl⟩ | ⟨-, -, rfl⟩ | ⟨c, -, -, -, hexec⟩
  · exact inv_of_idle rfl rfl
  · exact inv_of_idle rfl rfl
  · exact inv_of_idle rfl rfl
  · exact inv_of_same_flags hs rfl rfl rfl rfl
  · exact exec_inv rfl hexec

/-! ## After reset, and `state_o` -/

/-- Settles O50: `powerOn` clears the flags and presents nothing, whatever it is given. -/
theorem powerOnState : Obligations.PowerOnState :=
  ⟨fun _ _ _ => ⟨rfl, rfl, rfl, rfl, rfl⟩, Words.zero, Words.zero, 0#8, rfl⟩

/-- Settles O54: after reset the block is idle and presents no response. -/
theorem powerOnSatisfiesInv : Obligations.PowerOnSatisfiesInv :=
  ⟨inv_of_idle rfl rfl, fun _ _ _ => inv_of_idle rfl rfl⟩

/-- What `state_o` shows of a seeded idle block (R25). -/
theorem stateO_of_seeded_idle (hs : s.seeded = true) (hb : s.busy = false) :
    stateO s = s.words.s3 ++ s.words.s2 ++ s.words.s1 ++ s.words.s0 := by
  simp [stateO, hs, hb]

/-- The bits of `x` stand above the 64 bits of the word appended to it. -/
theorem getLsbD_append_word_above {n : Nat} (x : BitVec n) (y : Word) (k : Nat) : (x ++ y).getLsbD (64 + k) = x.getLsbD k := by
  simp [BitVec.getLsbD_append]

/-- The low 64 bits are those of the word appended last. -/
theorem getLsbD_append_word_low {n : Nat} (x : BitVec n) (y : Word) (b : Fin 64) : (x ++ y).getLsbD b.val = y.getLsbD b.val := by
  simp [BitVec.getLsbD_append]

/-- Bit `64 i + b` of four appended words is bit `b` of word `i`, counted from the right. -/
theorem getLsbD_append_words (w : Words) (i : Fin 4) (b : Fin 64) :
    (w.s3 ++ w.s2 ++ w.s1 ++ w.s0).getLsbD (64 * i.val + b.val) = (w.get i).getLsbD b.val := by
  match i with
  | 0 => rw [show 64 * (0 : Fin 4).val + b.val = b.val by simp, getLsbD_append_word_low, Words.get_zero]
  | 1 => rw [show 64 * (1 : Fin 4).val + b.val = 64 + b.val by simp, getLsbD_append_word_above, getLsbD_append_word_low,
      Words.get_one]
  | 2 => rw [show 64 * (2 : Fin 4).val + b.val = 64 + (64 + b.val) by simp; omega, getLsbD_append_word_above,
      getLsbD_append_word_above, getLsbD_append_word_low, Words.get_two]
  | 3 => rw [show 64 * (3 : Fin 4).val + b.val = 64 + (64 + (64 + b.val)) by simp; omega, getLsbD_append_word_above,
      getLsbD_append_word_above, getLsbD_append_word_above, Words.get_three]

/-- Settles O51: `state_o` is the four words appended, so its bits are theirs. -/
theorem stateOutputShowsTheWords : Obligations.StateOutputShowsTheWords := by
  intro s hs hb i b
  rw [stateO_of_seeded_idle hs hb]
  exact getLsbD_append_words s.words i b

end Sys2Proof.Machine
end

