-- ==== Sys2Proof/Proofs/Indistinguishable.lean ====
section
/-! PROOF. Family state: machines that are `Alike` stay so and show the same at the ports (spec/10_state.md R18, R25, R26). Each operation
of the step keeps the relation; the pulses of `step_o` are a function of the sample, BUSY and SEEDED. -/

namespace Sys2Proof.Machine

variable {s t s' t' : State}

/-! ## The operations of a step keep the relation -/

theorem State.Alike.port_eq (h : State.Alike s t) : port s = port t := by
  obtain ⟨-, -, -, -, hwaiting, hinputs⟩ := h
  simp only [port, hwaiting, hinputs]

theorem State.Alike.handshakeBroken_eq (h : State.Alike s t) : handshakeBroken s = handshakeBroken t := by
  have hport := h.port_eq
  obtain ⟨-, -, -, -, hwaiting, -⟩ := h
  simp only [handshakeBroken, hwaiting, hport]

theorem State.Alike.advance (h : State.Alike s t) : State.Alike (advance s) (advance t) := by
  obtain ⟨hseeded, hwords, hbusy, hrsp, hwaiting, hinputs⟩ := h
  exact ⟨hseeded, hwords, hbusy, hrsp, hwaiting, congrArg List.tail hinputs⟩

theorem State.Alike.accept (h : State.Alike s t) : State.Alike (accept s) (accept t) := by
  obtain ⟨hseeded, hwords, -, -, -, hinputs⟩ := h
  exact ⟨hseeded, hwords, rfl, rfl, rfl, hinputs⟩

theorem State.Alike.takeResponse (h : State.Alike s t) : State.Alike (takeResponse s) (takeResponse t) := by
  obtain ⟨hseeded, hwords, -, -, hwaiting, hinputs⟩ := h
  exact ⟨hseeded, hwords, rfl, rfl, hwaiting, hinputs⟩

/-- A reset leaves alike whatever waits alike: the words do not count while SEEDED = 0 (R26). -/
theorem resetEvent_alike (hwaiting : s.waiting = t.waiting) (hinputs : s.inputs = t.inputs) :
    State.Alike (resetEvent s) (resetEvent t) :=
  ⟨rfl, fun hs => absurd hs (by simp), rfl, rfl, hwaiting, hinputs⟩

/-- A command reads nothing that alike machines differ in (`exec_congr`). -/
theorem exec_alike (i : Instr) (h : State.Alike s t) : OutcomesAlike (exec i s) (exec i t) := by
  obtain ⟨hseeded, hwords, hbusy, -, hwaiting, hinputs⟩ := h
  obtain ⟨s', t', hs, ht, hrsp', hseeded', hwords', -⟩ := exec_congr i hseeded hwords
  obtain ⟨hsb, hsw, hsi⟩ := exec_frame hs
  obtain ⟨htb, htw, hti⟩ := exec_frame ht
  rw [hs, ht]
  exact ⟨hseeded', hwords', by rw [hsb, htb, hbusy], hrsp', by rw [hsw, htw, hwaiting], by rw [hsi, hti, hinputs]⟩

/-- The transaction rule keeps the relation, arm by arm. -/
theorem transact_alike (i : Inputs) (h : State.Alike s t) : OutcomesAlike (transact i s) (transact i t) := by
  have ⟨hseeded, hwords, hbusy, hrsp, _, hinputs⟩ := h
  unfold transact
  rw [← hbusy, ← hrsp]
  split
  · exact resetEvent_alike rfl hinputs
  · exact resetEvent_alike rfl hinputs
  · exact resetEvent_alike rfl hinputs
  · exact resetEvent_alike rfl hinputs
  · split
    · exact State.Alike.takeResponse ⟨hseeded, hwords, rfl, rfl, rfl, hinputs⟩
    · exact ⟨hseeded, hwords, rfl, rfl, rfl, hinputs⟩
  · exact exec_alike _ h.accept
  · exact ⟨hseeded, hwords, rfl, rfl, rfl, hinputs⟩

theorem step_alike (h : State.Alike s t) : OutcomesAlike (step s) (step t) := by
  unfold step
  rw [← h.handshakeBroken_eq, ← h.port_eq]
  split
  · rfl
  · exact transact_alike _ h.advance

/-! ## The pulses of `step_o` -/

/-- How often `step_o` pulses in a sample: the transitions of the command that an idle block accepts in it, as many as a reset inside the
sample lets it make; see `step_stepPulses` (R104, R108). -/
def pulsesIn (i : Inputs) (s : State) : Nat :=
  match i.rst, s.busy, i.cmd with
  | .low, false, some c => transitions (decode c) s
  | .during k, false, some c => min k (transitions (decode c) s)
  | _, _, _ => 0

theorem pulsesIn_congr (i : Inputs) (hbusy : s.busy = t.busy) (hseeded : s.seeded = t.seeded) : pulsesIn i s = pulsesIn i t := by
  simp only [pulsesIn, hbusy, transitions_congr _ hseeded]

/-- A sample in which nothing is accepted pulses nothing. -/
theorem pulsesIn_of_none_accepted {i : Inputs} (h : i.rst = .high ∨ s.busy = true ∨ i.cmd = none) : pulsesIn i s = 0 := by
  unfold pulsesIn
  split <;> simp_all

/-- Every step counts the pulses of its sample. -/
theorem step_stepPulses (h : step s = .next s') : s'.stepPulses = s.stepPulses + pulsesIn (port s) s := by
  rcases step_next_cases h with ⟨-, hguard, rfl⟩ | ⟨k, c, hrst, hb, hc, rfl⟩ | ⟨-, hb, rfl⟩ | ⟨-, hguard, rfl⟩
    | ⟨c, hrst, hb, hc, hexec⟩
  · rw [pulsesIn_of_none_accepted hguard]; rfl
  · simp only [pulsesIn, hrst, hb, hc]; rfl
  · rw [pulsesIn_of_none_accepted (.inr (.inl hb))]; rfl
  · rw [pulsesIn_of_none_accepted (.inr hguard)]; rfl
  · have hpulses := exec_stepPulses hexec
    rw [transitions_congr (s := accept (advance s)) (t := s) _ rfl] at hpulses
    simpa [pulsesIn, hrst, hb, hc] using hpulses

theorem stepO_of_step (h : step s = .next s') : stepO s s' = some (pulsesIn (port s) s) := by
  rw [stepO_eq, step_stepPulses h, Nat.add_sub_cancel_left]

/-- Settles O56: the step keeps the relation, and the ports show functions of what alike machines share. -/
theorem unspecifiedStateNeverShows : Obligations.UnspecifiedStateNeverShows := by
  intro s t h
  have hport := h.port_eq
  have hstep := step_alike h
  obtain ⟨hseeded, hwords, hbusy, hrsp, -, -⟩ := h
  refine ⟨hstep, fun s' t' hs ht => ?_, by simp only [cmdReadyO, hbusy, hport], by simp only [rspValidO, hrsp], hseeded,
    fun hvalid => ?_, fun hs hb => ?_⟩
  · rw [stepO_of_step hs, stepO_of_step ht, hport, pulsesIn_congr _ hbusy hseeded]
  · obtain ⟨r, hr⟩ := Option.isSome_iff_exists.1 hvalid
    simp only [rspErrO, rspDataO, ← hrsp, hr, and_self]
  · rw [stateO_of_seeded_idle hs hb, stateO_of_seeded_idle (hseeded ▸ hs) (hbusy ▸ hb), hwords hs]

end Sys2Proof.Machine
end

