-- ==== Sys2Proof/Proofs/PortsRefine.lean ====
section
/-! PROOF. Family state: a script driven on the ports refines the sequence of whole transactions (spec/10_state.md R24, R36). One
transaction takes two samples: in the first the command is accepted and performed, in the second the response is taken. -/

namespace Sys2Proof

/-! ## A command survives the command port -/

/-- Digit `k`, in base 256, of the number on the port is byte `k` (R30). -/
theorem lanesNat_div_mod (l : List Byte) (k : Nat) (hk : k < l.length) : lanesNat l / 256 ^ k % 256 = l[k].toNat := by
  induction l generalizing k with
  | nil => cases hk
  | cons b bs ih =>
    have hb := b.isLt
    cases k with
    | zero => simp; omega
    | succ k =>
      have hdiv : (b.toNat + 256 * lanesNat bs) / 256 = lanesNat bs := by omega
      rw [lanesNat_cons, pow_succ', ← Nat.div_div_eq_div_mul, hdiv, ih k (by simpa using hk), List.getElem_cons_succ]

/-- The lanes of the port that carries a seed are its bytes (R30). -/
theorem seedLanes_seedPort (m : Seed) : seedLanes (seedPort m) = m := by
  refine Vector.ext fun k hk => ?_
  have hlt : lanesNat m.toList < 2 ^ 256 := by simpa using lanesNat_lt m.toList
  rw [seedLanes_getElem _ k hk]
  apply BitVec.eq_of_toNat_eq
  rw [BitVec.extractLsb'_toNat, seedPort, BitVec.toNat_ofNat, Nat.mod_eq_of_lt hlt, Nat.shiftRight_eq_div_pow, pow_mul]
  exact (lanesNat_div_mod m.toList k (by simpa using hk)).trans (congrArg BitVec.toNat (Vector.getElem_toList _))

/-- The block decodes the command that the host encoded (R39, R40). -/
theorem decode_encode (i : Instr) : decode (encode i) = i := by
  cases i with
  | seed m => exact congrArg Instr.seed (seedLanes_seedPort m)
  | next | f32co | f32cc | f64co | f64cc | jump | reserved => rfl

end Sys2Proof

namespace Sys2Proof.Machine

/-! ## One transaction on the ports -/

/-- The machine `p` at the ports is where the machine `s` of the transactions is: all that a command reads, and the model's counts that
a script reports. The accumulators, the index and the step number may differ. -/
structure Tracks (p s : State) : Prop where
  seeded : p.seeded = s.seeded
  words : p.words = s.words
  stepPulses : p.stepPulses = s.stepPulses
  errorMark : p.errorMark = s.errorMark

/-- A command keeps two machines together and answers alike on them. -/
theorem exec_tracks (i : Instr) {p s : State} (h : Tracks p s) :
    ∃ v w r, exec i p = .next v ∧ exec i s = .next w ∧ v.rsp = some r ∧ w.rsp = some r ∧ Tracks v w := by
  obtain ⟨v, w, hv, hw, hrsp, hseeded, -, hwords⟩ := exec_congr i h.seeded fun _ => h.words
  obtain ⟨v', r, hv', hr⟩ := exec_responds i p
  cases hv.symm.trans hv'
  refine ⟨v, w, r, hv, hw, hr, hrsp ▸ hr, hseeded, hwords h.words, ?_, ?_⟩
  · rw [exec_stepPulses hv, exec_stepPulses hw, h.stepPulses, transitions_congr i h.seeded]
  · rw [exec_errorMark hv, exec_errorMark hw, h.errorMark, hrsp]

/-- The two samples of a command perform one whole transaction: its response is presented after the first, and after the second the
block is idle again (R24). -/
theorem transaction_on_ports (i : Instr) {p s : State} {rest : List Inputs} (hidle : p.Idle)
    (hin : p.inputs = commandSamples i ++ rest) (h : Tracks p s) :
    ∃ v q u r, step p = .next v ∧ step v = .next q ∧ transaction i s = some (u, r) ∧ v.rsp = some r ∧ v.busy = true
      ∧ q.Idle ∧ q.inputs = rest ∧ Tracks q u := by
  obtain ⟨hbusy, -, hwaiting⟩ := hidle
  have haccept := stepRunsPresentedCommand p (encode i) false _ hbusy (.inl hwaiting) hin
  rw [decode_encode] at haccept
  obtain ⟨v, w, r, hv, hw, hvr, hwr, htracks⟩ := exec_tracks i
    (p := { p with busy := true, rsp := none, waiting := none, inputs := ⟨.low, none, true⟩ :: rest, now := p.now + 1 })
    (s := accept s) ⟨h.seeded, h.words, h.stepPulses, h.errorMark⟩
  obtain ⟨hvb, hvw, hvi⟩ := exec_frame hv
  obtain ⟨-, -, htaken⟩ := responseHeldUntilTaken v r _ rest hvb hvr hvi rfl (.inl hvw)
  refine ⟨v, _, takeResponse w, r, haccept.trans hv, htaken, ?_, hvr, hvb, ⟨rfl, rfl, rfl⟩, rfl,
    htracks.seeded, htracks.words, htracks.stepPulses, htracks.errorMark⟩
  simp [transaction, hw, hwr]

/-! ## A whole script -/

theorem transactions_cons {i : Instr} {is : List Instr} {s t u : State} {r : Response} {rs : List Response}
    (h : transaction i s = some (t, r)) (hrest : transactions is t = some (u, rs)) :
    transactions (i :: is) s = some (u, r :: rs) := by
  simp [transactions, h, hrest]

/-- A script on the ports, from any idle machine that tracks the machine of the transactions: it ends idle and in step with the
transactions, and presents their responses one after another. -/
theorem script_refines (is : List Instr) {p s : State} {rest : List Inputs} (hidle : p.Idle)
    (hin : p.inputs = is.flatMap commandSamples ++ rest) (h : Tracks p s) :
    ∃ t u rs, Host.Core.run Sys2Proof.core (2 * is.length) p = .next t ∧ transactions is s = some (u, rs) ∧ rs.length = is.length
      ∧ (∀ k, k < is.length →
          ∃ v r, Host.Core.run Sys2Proof.core (2 * k + 1) p = .next v ∧ rs[k]? = some r ∧ v.rsp = some r ∧ v.busy = true)
      ∧ t.Idle ∧ t.inputs = rest ∧ Tracks t u := by
  induction is generalizing p s with
  | nil => exact ⟨p, s, [], rfl, rfl, rfl, fun k hk => absurd hk (Nat.not_lt_zero k), hidle, hin, h⟩
  | cons i is ih =>
    rw [List.flatMap_cons, List.append_assoc] at hin
    obtain ⟨v, q, s', r, hv, hq, htrans, hvr, hvb, hqidle, hqin, hq'⟩ := transaction_on_ports i hidle hin h
    have htwo (n : Nat) : Host.Core.run Sys2Proof.core (n + 1 + 1) p = Host.Core.run Sys2Proof.core n q := by
      rw [run_succ_of_next _ hv, run_succ_of_next _ hq]
    obtain ⟨t, u, rs, hrun, hrest, hlen, hresponses, hend⟩ := ih hqidle hqin hq'
    refine ⟨t, u, r :: rs, (htwo _).trans hrun, transactions_cons htrans hrest, congrArg (· + 1) hlen, fun k hk => ?_, hend⟩
    cases k with
    | zero => exact ⟨v, r, run_succ_of_next 0 hv, rfl, hvr, hvb⟩
    | succ k =>
      obtain ⟨v', r', hrun', hat⟩ := hresponses k (Nat.lt_of_succ_lt_succ hk)
      exact ⟨v', r', (htwo _).trans hrun', hat⟩

/-- Settles O11: the driven machine starts where the machine of the transactions does. -/
theorem portsRefineTransactions : Obligations.PortsRefineTransactions := by
  intro is s rest hidle
  obtain ⟨t, u, rs, hrun, htrans, hlen, hresponses, htidle, htin, htracks⟩ :=
    script_refines is (p := { s with inputs := is.flatMap commandSamples ++ rest }) (s := s) hidle rfl ⟨rfl, rfl, rfl, rfl⟩
  exact ⟨t, u, rs, hrun, htrans, hlen, hresponses, htidle, htin, htracks.seeded, htracks.words, htracks.stepPulses,
    htracks.errorMark⟩

end Sys2Proof.Machine
end

