-- ==== Sys2Proof/Proofs/SeedPacking.lean ====
section
/-! PROOF. Family memory: the packing of the seed bytes into the words, the first byte the most significant (spec/20_memory.md R29). -/

namespace Sys2Proof

/-- Appending a byte below a number is one step of the big-endian sum. -/
theorem toNat_append_byte {n : Nat} (x : BitVec n) (b : Byte) : (x ++ b).toNat = x.toNat * 2 ^ 8 + b.toNat := by
  rw [BitVec.toNat_append, ← Nat.shiftLeft_add_eq_or_of_lt b.isLt, Nat.shiftLeft_eq]

end Sys2Proof

namespace Sys2Proof.Machine

@[simp] theorem packSeed_get (m : Seed) (j : Fin 4) : (packSeed m).get j = packWord m j :=
  match j with
  | 0 | 1 | 2 | 3 => rfl

/-- A packed word is the big-endian sum of its bytes (R29). -/
theorem packWord_toNat (m : Seed) (j : Fin 4) :
    (packWord m j).toNat = ∑ k : Fin 8, m[8 * j.val + k.val].toNat * 2 ^ (8 * (7 - k.val)) := by
  rw [packWord, Fin.sum_univ_eight]
  simp only [toNat_append_byte, Fin.coe_ofNat_eq_mod, Nat.reduceMod, Nat.reduceSub, Nat.reduceMul, Nat.add_zero]
  omega

/-- Byte `k` of a packed word, the most significant first, is byte `8 j + k` of the seed: the `7 - k` bytes appended after it lie below
it, those before it above (R29). -/
theorem packWord_byte (m : Seed) (j : Fin 4) (k : Fin 8) :
    (packWord m j).extractLsb' (8 * (7 - k.val)) 8 = m[8 * j.val + k.val] := by
  rw [packWord]
  fin_cases k <;> simp only [BitVec.extractLsb'_append_eq_of_le, BitVec.extractLsb'_append_eq_right, BitVec.extractLsb'_eq_self,
    Nat.reduceMul, Nat.reduceSub, Nat.reduceLeDiff, Nat.add_zero]

/-- Settles O12: SEED leaves the packed words in every state. -/
theorem seedPacksBigEndian : Obligations.SeedPacksBigEndian := by
  intro m s
  refine ⟨_, rfl, fun j => ?_⟩
  rw [respond_words, setSeeded_words, loadWords_words, packSeed_get]
  exact ⟨packWord_toNat m j, packWord_byte m j 0, packWord_byte m j 7⟩

end Sys2Proof.Machine
end

