-- ==== Sys2Proof/Proofs/Encoding.lean ====
section
/-! PROOF. Family encoding: decoding reads the opcode, and the seed port with opcode 0 alone (spec/30_encoding.md R40, R44 to R46);
LOADSTATE is the SEED whose bytes are the big-endian serialisation of the words (R48). -/

namespace Sys2Proof

/-! ## The opcode -/

/-- The eight values of `cmd_op_i` are the whole encoding space (R45). -/
theorem opcode_cases : ∀ op : BitVec 3,
    op = 0#3 ∨ op = 1#3 ∨ op = 2#3 ∨ op = 3#3 ∨ op = 4#3 ∨ op = 5#3 ∨ op = 6#3 ∨ op = 7#3 := by decide

/-- With an opcode of format C the seed port is not decoded (R40). -/
theorem decode_seed_congr {op : BitVec 3} (x y : BitVec 256) (h : op ≠ 0#3) : decode ⟨op, x⟩ = decode ⟨op, y⟩ := by
  rcases opcode_cases op with rfl | rfl | rfl | rfl | rfl | rfl | rfl | rfl
  · exact absurd rfl h
  all_goals rfl

/-- Each opcode has a command of its own (R39, R44). -/
@[simp] theorem opcodeOf_decode (c : Command) : opcodeOf (decode c) = c.op := by
  obtain ⟨op, x⟩ := c
  rcases opcode_cases op with rfl | rfl | rfl | rfl | rfl | rfl | rfl | rfl <;> rfl

/-- Only opcode 7 is illegal, whatever the seed port carries (R44, R45). -/
theorem decode_eq_reserved_iff (c : Command) : decode c = .reserved ↔ c.op = 7#3 := by
  rw [← opcodeOf_decode]
  cases decode c <;> simp [opcodeOf]

/-! ## Words and their bytes -/

/-- A word is determined by its eight bytes: bit `i` is bit `i % 8` of byte `7 - i / 8`, the most significant first. -/
theorem word_ext_bytes {a b : Word}
    (h : ∀ k : Fin 8, a.extractLsb' (8 * (7 - k.val)) 8 = b.extractLsb' (8 * (7 - k.val)) 8) : a = b := by
  refine BitVec.eq_of_getLsbD_eq fun i hi => ?_
  have hbit := congrArg (·.getLsbD (i % 8)) (h ⟨7 - i / 8, by omega⟩)
  have hpos : 8 * (7 - (7 - i / 8)) + i % 8 = i := by omega
  have hlt : i % 8 < 8 := by omega
  simpa [BitVec.getLsbD_extractLsb', hpos, hlt] using hbit

end Sys2Proof

namespace Sys2Proof.Machine

theorem packWord_seedOfWords (w : Words) (j : Fin 4) : packWord (seedOfWords w) j = w.get j :=
  word_ext_bytes fun k => by rw [packWord_byte, seedOfWords_getElem, byteOf]

/-- Packing undoes the big-endian serialisation of four words (R55). -/
@[simp] theorem packSeed_seedOfWords (w : Words) : packSeed (seedOfWords w) = w :=
  Words.ext_words (packWord_seedOfWords w 0) (packWord_seedOfWords w 1) (packWord_seedOfWords w 2) (packWord_seedOfWords w 3)

/-- LOADSTATE loads its words and sets SEEDED, in every state (R48). -/
theorem exec_loadStateCommand (w : Words) (s : State) :
    exec (loadStateCommand w) s = .next (respond 0#64 (setSeeded (loadWords w s))) := by
  rw [loadStateCommand, exec, execSeed, packSeed_seedOfWords]

/-! ## The statements -/

/-- Settles O1: the decode table row by row, and every command presents a response. -/
theorem decodeAndExecAreTotal : Obligations.DecodeAndExecAreTotal :=
  ⟨fun _ => ⟨rfl, rfl, rfl, rfl, rfl, rfl, rfl, rfl⟩, exec_responds⟩

/-- Settles O16: packing undoes the serialisation, and the two lines of R48's example are read as they stand. -/
theorem loadStateRestoresWords : Obligations.LoadStateRestoresWords := by
  refine ⟨fun w s => ⟨seedOfWords w, _, rfl, exec_loadStateCommand w s, ?_, ?_⟩, by decide, by decide⟩
  · rw [respond_words, setSeeded_words, loadWords_words]
  · rw [respond_seeded, setSeeded_seeded]

/-- Settles O6: an idle block runs the decoded command, and decoding ignores the seed port. -/
theorem formatCIgnoresSeedPort : Obligations.FormatCIgnoresSeedPort := by
  refine ⟨fun _ => decode_seed_congr, fun op x => decode_eq_reserved_iff ⟨op, x⟩, fun s op x y r rest hb hw hop => ?_⟩
  have hruns (z : BitVec 256) := stepRunsPresentedCommand
    { s with inputs := ⟨.low, some ⟨op, z⟩, r⟩ :: rest } ⟨op, z⟩ r rest hb (.inl hw) rfl
  rw [hruns x, hruns y, decode_seed_congr x y hop]

end Sys2Proof.Machine
end

