-- ==== Sys2Proof/Proofs/Seeding.lean ====
section
/-! PROOF. Family seed: what SEED leaves, the wiring of the normalizer and its inverse (spec/40_seed.md R53 to R55), and that nothing from
before a SEED can be told afterwards (R56). -/

namespace Sys2Proof

/-- A seed is determined by the bytes of its four words: byte `i` is byte `i % 8` of word `i / 8` (R29). -/
theorem seed_ext_bytes {m m' : Seed} (h : ∀ (j : Fin 4) (k : Fin 8), m[8 * j.val + k.val] = m'[8 * j.val + k.val]) : m = m' := by
  refine Vector.ext fun i hi => ?_
  have hbyte := h ⟨i / 8, by omega⟩ ⟨i % 8, by omega⟩
  simpa only [Nat.div_add_mod] using hbyte

/-- The port value that carries a seed decodes to the SEED with that seed (R30, R39). -/
theorem decode_seedPort (m : Seed) : decode ⟨0#3, seedPort m⟩ = .seed m := decode_encode (.seed m)

end Sys2Proof

namespace Sys2Proof.Machine

/-! ## The effect of SEED -/

/-- Settles O13: loading the words, setting SEEDED and responding touch these three fields alone. -/
theorem seedEffectAndFrame : Obligations.SeedEffectAndFrame := fun _ _ => rfl

/-! ## The normalizer and its inverse -/

/-- Bit `b` of byte `k` of a packed word, the most significant byte first, is bit `b` of byte `8 j + k` of the seed (R29, R53). -/
theorem packWord_getLsbD (m : Seed) (j : Fin 4) (k b : Fin 8) :
    (packWord m j).getLsbD (8 * (7 - k.val) + b.val) = m[8 * j.val + k.val].getLsbD b.val := by
  rw [← packWord_byte, BitVec.getLsbD_extractLsb', decide_eq_true b.isLt, Bool.true_and]

/-- Settles O14: bit `b` of byte `m` of word `j` is bit `b` of seed byte `8 j + m`, which the port carries on lane `8 j + m`. -/
theorem normalizerReversesLanes : Obligations.NormalizerReversesLanes := by
  intro x s
  refine ⟨_, seedEffectAndFrame (seedLanes x) s, fun j m b => ?_⟩
  rw [packSeed_get, packWord_getLsbD, seedLanes_getElem, BitVec.getLsbD_extractLsb', decide_eq_true b.isLt, Bool.true_and]

/-- Two seeds that pack to the same words have the same bytes (R55). -/
theorem packSeed_injective : Function.Injective packSeed := by
  intro m m' h
  refine seed_ext_bytes fun j k => ?_
  rw [← packWord_byte, ← packWord_byte, ← packSeed_get, ← packSeed_get, h]

/-- Settles O15: the serialisation of R55 is the inverse of the packing, and SEED loads what it packs. -/
theorem seedingIsBijective : Obligations.SeedingIsBijective := by
  refine ⟨⟨packSeed_injective, fun w => ⟨seedOfWords w, packSeed_seedOfWords w⟩⟩, fun m j k => ?_, fun w s => ?_⟩
  · rw [packSeed_get, packWord_byte]
  · exact ⟨seedOfWords w, _, seedEffectAndFrame _ s, packSeed_seedOfWords w, rfl⟩

/-! ## Determinism after a SEED -/

/-- Outcomes that the host cannot tell apart are two alike next states or one refusal: no machine faults. -/
theorem outcomesAlike_iff {o p : Host.Outcome State Fault Refusal} :
    OutcomesAlike o p ↔ (∃ s t, o = .next s ∧ p = .next t ∧ State.Alike s t) ∨ ∃ r, o = .refused r ∧ p = .refused r := by
  cases o <;> cases p <;> simp [OutcomesAlike, eq_comm]

/-- Machines that are alike, which includes what their hosts will drive, run alike: `step_alike` along the run (R36). -/
theorem run_alike (n : Nat) {s t : State} (h : State.Alike s t) :
    OutcomesAlike (Host.Core.run Sys2Proof.core n s) (Host.Core.run Sys2Proof.core n t) := by
  induction n generalizing s t with
  | zero => exact h
  | succ n ih =>
    rcases outcomesAlike_iff.1 (step_alike h) with ⟨s', t', hs, ht, h'⟩ | ⟨r, hs, ht⟩
    · rw [run_succ_of_next n hs, run_succ_of_next n ht]
      exact ih h'
    · rw [run_succ_of_refused n hs, run_succ_of_refused n ht]
      rfl

/-- What an idle machine is after it accepts and performs the SEED that its host presents. -/
theorem step_seed {s : State} {m : Seed} {ready : Bool} {rest : List Inputs} (hidle : s.Idle)
    (hin : s.inputs = ⟨.low, some ⟨0#3, seedPort m⟩, ready⟩ :: rest) :
    step s = .next { s with words := packSeed m, seeded := true, busy := true, rsp := some ⟨.ok, 0#64⟩, waiting := none,
                            inputs := rest, now := s.now + 1 } := by
  obtain ⟨hbusy, -, hwaiting⟩ := hidle
  rw [stepRunsPresentedCommand s _ ready rest hbusy (.inl hwaiting) hin, decode_seedPort, seedEffectAndFrame]

/-- Settles O57: SEED overwrites all that the ports show or a command reads, so two machines are alike after it, and alike machines stay
so. -/
theorem seedDeterminesEverything : Obligations.SeedDeterminesEverything := by
  intro m ready rest s t n hs ht
  have hrun (u : State) (hu : u.Idle) := run_succ_of_next n
    (step_seed (s := { u with inputs := ⟨.low, some ⟨0#3, seedPort m⟩, ready⟩ :: rest }) hu rfl)
  rw [hrun s hs, hrun t ht]
  exact run_alike n ⟨rfl, fun _ => rfl, rfl, rfl, rfl, rfl⟩

end Sys2Proof.Machine
end

