-- ==== Sys2Proof/Proofs/WordArithmetic.lean ====
section
/-! PROOF. Family next: the integer primitives on one word, rotation, product and the shift that is added to its operand
(spec/00_scope.md R7, spec/41_next.md R63). -/

namespace Sys2Proof.Machine

/-! ## Rotation -/

/-- The two shifts of `rotl64` are the library's rotation for the amounts that R7 allows. -/
theorem rotl64_eq_rotateLeft (x : Word) {k : Nat} (hk : k < 64) : rotl64 x k = x.rotateLeft k := by
  rw [BitVec.rotateLeft_def, Nat.mod_eq_of_lt hk, rotl64, or64, shl64, shr64]

/-- Bit `i` of a rotation by `k` is bit `(i - k) mod 64` of the operand (R7). -/
theorem rotl64_getLsbD (x : Word) {k i : Nat} (hk : k < 64) (hi : i < 64) :
    (rotl64 x k).getLsbD i = x.getLsbD ((i + 64 - k) % 64) := by
  rw [rotl64_eq_rotateLeft x hk, BitVec.getLsbD_rotateLeft, Nat.mod_eq_of_lt hk]
  by_cases hik : i < k
  case pos =>
    have hpos : (i + 64 - k) % 64 = 64 - k + i := by omega
    simp [hik, hpos]
  case neg =>
    have hpos : (i + 64 - k) % 64 = i - k := by omega
    simp [hik, hi, hpos]

/-- A rotation adds the bits that leave at the top to the low end, which the shift has cleared. -/
theorem rotl64_toNat (x : Word) {k : Nat} (hk : k < 64) :
    (rotl64 x k).toNat = x.toNat * 2 ^ k % 2 ^ 64 + x.toNat / 2 ^ (64 - k) := by
  have hpow : 2 ^ 64 = 2 ^ (64 - k) * 2 ^ k := by rw [← pow_add, Nat.sub_add_cancel hk.le]
  have hlow : x.toNat / 2 ^ (64 - k) < 2 ^ k := Nat.div_lt_of_lt_mul (hpow ▸ x.isLt)
  rw [rotl64_eq_rotateLeft x hk, BitVec.toNat_rotateLeft, Nat.mod_eq_of_lt hk, Nat.shiftRight_eq_div_pow, Nat.shiftLeft_eq, hpow,
    Nat.mul_mod_mul_right, ← Nat.shiftLeft_eq, Nat.shiftLeft_add_eq_or_of_lt hlow]

/-- Rotation is linear: it only moves bits. -/
theorem rotl64_xor (a b : Word) {k : Nat} (hk : k < 64) : rotl64 (a ^^^ b) k = rotl64 a k ^^^ rotl64 b k := by
  refine BitVec.eq_of_getLsbD_eq fun i hi => ?_
  simp only [BitVec.getLsbD_xor, rotl64_getLsbD _ hk hi]

/-- Rotations whose amounts add up to the width undo each other. -/
theorem rotl64_rotl64 (x : Word) {j k : Nat} (hj : j < 64) (hk : k < 64) (hjk : j + k = 64) : rotl64 (rotl64 x j) k = x := by
  refine BitVec.eq_of_getLsbD_eq fun i hi => ?_
  have hpos : ((i + 64 - k) % 64 + 64 - j) % 64 = i := by omega
  rw [rotl64_getLsbD _ hk hi, rotl64_getLsbD _ hj (Nat.mod_lt _ (by decide)), hpos]

/-! ## Products -/

theorem mul64_toNat (a b : Word) : (mul64 a b).toNat = a.toNat * b.toNat % 2 ^ 64 := BitVec.toNat_mul a b

/-- The product by `2^k + 1` is a shift and an addition: no multiplier is needed (R63). -/
theorem mul64_twoPow_add_one (x : Word) (k : Nat) : mul64 x (BitVec.twoPow 64 k + 1#64) = x + shl64 x k := by
  rw [mul64, shl64, BitVec.mul_add, BitVec.mul_twoPow_eq_shiftLeft, BitVec.mul_one, BitVec.add_comm]

/-- A product by `c` is exact up to the greatest factor whose product fits 64 bits, and wraps above it (R63). -/
theorem mul64_exact_iff (x c : Word) (hc : 0 < c.toNat) :
    (mul64 x c).toNat = x.toNat * c.toNat ↔ x.toNat ≤ (2 ^ 64 - 1) / c.toNat := by
  rw [mul64_toNat, Nat.mod_eq_iff_lt (by decide), Nat.le_div_iff_mul_le hc]
  omega

/-- Settles O19: 5 and 9 are `2^2 + 1` and `2^3 + 1`, and the rule's bounds are `2^64 - 1` divided by them. -/
theorem coreArithmeticLaws : Obligations.CoreArithmeticLaws := by
  refine ⟨fun x => ⟨mul64_twoPow_add_one x 2, mul64_twoPow_add_one x 3, ?_, ?_⟩, fun x k i _ hk hi => rotl64_getLsbD x hk hi⟩
  · exact mul64_exact_iff x 5#64 (by decide)
  · exact mul64_exact_iff x 9#64 (by decide)

/-! ## A word with its own shift added -/

/-- What the transition leaves of `s[1]` in the sum of the new `s[1]` and `s[2]` (R64). -/
def xorShl (k : Nat) (x : Word) : Word := x ^^^ x <<< k

/-- Adding the shift twice adds the double shift: the two single shifts cancel. -/
theorem xorShl_xorShl (k : Nat) (x : Word) : xorShl k (xorShl k x) = xorShl (k + k) x := by
  simp only [xorShl, BitVec.shiftLeft_xor_distrib, BitVec.shiftLeft_add]
  rw [BitVec.xor_assoc, xor_cancel_left]

/-- Two doublings take the shift by 17 to a shift by 68, which drops every bit. -/
theorem xorShl_four_times (x : Word) : xorShl 17 (xorShl 17 (xorShl 17 (xorShl 17 x))) = x := by
  rw [xorShl_xorShl, xorShl_xorShl, xorShl_xorShl, xorShl, BitVec.shiftLeft_eq_zero (by decide), BitVec.xor_zero]

/-- The word whose own shift by 17 was added: each further round settles seventeen more bits from the bottom (R64). -/
def unxorShl (y : Word) : Word := xorShl 17 (xorShl 17 (xorShl 17 y))

theorem unxorShl_xorShl (x : Word) : unxorShl (xorShl 17 x) = x := xorShl_four_times x

theorem xorShl_unxorShl (y : Word) : xorShl 17 (unxorShl y) = y := xorShl_four_times y

end Sys2Proof.Machine
end

