-- ==== Sys2Proof/Proofs/Transition.lean ====
section
/-! PROOF. Family next: the output word and the transition as functions of the words (spec/41_next.md R57 to R60, R64). -/

namespace Sys2Proof.Machine

/-! ## The output word -/

/-- The output word reads `s[1]` alone (R57). -/
theorem out_congr {v w : Words} (h : v.s1 = w.s1) : out v = out w := by
  rw [out, out, h]

/-- With `s[1]` = 0 the output word is 0, whatever the other words are (R61). -/
theorem out_of_s1_zero {w : Words} (h : w.s1 = 0#64) : out w = 0#64 :=
  (out_congr (w := Words.zero) h).trans (by decide)

/-- Settles O17: each primitive as arithmetic, the products reduced one by one. -/
theorem outputWordFormula : Obligations.OutputWordFormula := by
  refine ⟨fun w => ⟨_, _, rfl, rfl, ?_⟩, fun x y z => ?_⟩
  · rw [out, mul64_toNat, rotl64_toNat _ (by decide), mul64_toNat]
    rfl
  · exact (out_congr (w := ⟨0#64, 2#64, 0#64, 0#64⟩) rfl).trans (by decide)

/-! ## The transition, word by word -/

section Fields

variable (w : Words)

/-! Each word as the assignments leave it: `s[3] ^ s[1]` and `s[2] ^ s[0]` are computed first and then used twice (R58). -/

@[simp] theorem transition_s0 : (transition w).s0 = w.s0 ^^^ (w.s3 ^^^ w.s1) := rfl
@[simp] theorem transition_s1 : (transition w).s1 = w.s1 ^^^ (w.s2 ^^^ w.s0) := rfl
@[simp] theorem transition_s2 : (transition w).s2 = w.s2 ^^^ w.s0 ^^^ w.s1 <<< 17 := rfl
@[simp] theorem transition_s3 : (transition w).s3 = rotl64 (w.s3 ^^^ w.s1) 45 := rfl

end Fields

/-- Settles O18: the sequential result, bracketed as the rule writes it. -/
theorem transitionClosedForm : Obligations.TransitionClosedForm := by
  refine ⟨fun w => Words.ext_words ?_ ?_ ?_ ?_, by decide⟩
  · exact (transition_s0 w).trans (BitVec.xor_assoc ..).symm
  · exact (transition_s1 w).trans (BitVec.xor_assoc ..).symm
  · exact transition_s2 w
  · exact transition_s3 w

@[simp] theorem transition_zero : transition Words.zero = Words.zero := by decide

/-! ## Linear and bijective -/

theorem xor_xor_xor_comm (a b c d : Word) : (a ^^^ b) ^^^ (c ^^^ d) = (a ^^^ c) ^^^ (b ^^^ d) := by
  ac_rfl

/-- The transition is linear: every word of it is a sum of shifted and rotated words (R64). -/
theorem transition_xor (a b : Words) : transition (a.xor b) = (transition a).xor (transition b) := by
  apply Words.ext_words
  · simp only [transition_s0, Words.xor_s0, Words.xor_s1, Words.xor_s3, xor_xor_xor_comm a.s3, xor_xor_xor_comm a.s0]
  · simp only [transition_s1, Words.xor_s0, Words.xor_s1, Words.xor_s2, xor_xor_xor_comm a.s2, xor_xor_xor_comm a.s1]
  · simp only [transition_s2, Words.xor_s0, Words.xor_s1, Words.xor_s2, BitVec.shiftLeft_xor_distrib, xor_xor_xor_comm a.s2,
      xor_xor_xor_comm (a.s2 ^^^ a.s0)]
  · simp only [transition_s3, Words.xor_s1, Words.xor_s3, xor_xor_xor_comm a.s3, rotl64_xor _ _ (show 45 < 64 by decide)]

/-- The inverse of the transition as R64 computes it: `u` is the old `s[3] ^ s[1]`, and the sum of the new `s[1]` and `s[2]` gives the
old `s[1]`. -/
def predecessor (w : Words) : Words :=
  let u := rotl64 w.s3 19
  let s0 := w.s0 ^^^ u
  let s1 := unxorShl (w.s1 ^^^ w.s2)
  ⟨s0, s1, w.s1 ^^^ s1 ^^^ s0, u ^^^ s1⟩

theorem predecessor_transition (w : Words) : predecessor (transition w) = w := by
  have hu : rotl64 (transition w).s3 19 = w.s3 ^^^ w.s1 := rotl64_rotl64 _ (by decide) (by decide) rfl
  have h1 : unxorShl ((transition w).s1 ^^^ (transition w).s2) = w.s1 := by
    rw [transition_s1, transition_s2, BitVec.xor_assoc, xor_cancel_left]
    exact unxorShl_xorShl w.s1
  have h0 : (transition w).s0 ^^^ (w.s3 ^^^ w.s1) = w.s0 := xor_cancel_right ..
  have h2 : (transition w).s1 ^^^ w.s1 ^^^ w.s0 = w.s2 := by
    rw [transition_s1, xor_xor_cancel_comm, xor_cancel_right]
  rw [predecessor, hu, h0, h1, h2, xor_cancel_right]

theorem transition_predecessor (w : Words) : transition (predecessor w) = w := by
  have hshift : unxorShl (w.s1 ^^^ w.s2) ^^^ unxorShl (w.s1 ^^^ w.s2) <<< 17 = w.s1 ^^^ w.s2 := xorShl_unxorShl _
  apply Words.ext_words
  · rw [transition_s0, predecessor, xor_cancel_right, xor_cancel_right]
  · rw [transition_s1, predecessor, xor_cancel_right, xor_xor_cancel_comm_assoc]
  · rw [transition_s2, predecessor, xor_cancel_right, BitVec.xor_assoc, hshift, xor_cancel_left]
  · rw [transition_s3, predecessor, xor_cancel_right, rotl64_rotl64 _ (by decide) (by decide) rfl]

theorem transition_bijective : Function.Bijective transition :=
  Function.bijective_iff_has_inverse.2 ⟨predecessor, predecessor_transition, transition_predecessor⟩

/-- The all-zero state has no predecessor but itself (R62). -/
theorem transition_eq_zero_iff (w : Words) : transition w = Words.zero ↔ w = Words.zero :=
  transition_bijective.injective.eq_iff' transition_zero

/-- Settles O20: linear, with the inverse of R64; the output words of `s[1]` = 1 and `s[1]` = 2 do not add up to that of `s[1]` = 3. -/
theorem transitionIsLinearBijection : Obligations.TransitionIsLinearBijection :=
  ⟨transition_xor, transition_bijective, ⟨0#64, 1#64, 0#64, 0#64⟩, ⟨0#64, 2#64, 0#64, 0#64⟩, by decide⟩

end Sys2Proof.Machine
end

