-- ==== Sys2Proof/Proofs/Next.lean ====
section
/-! PROOF. Family next: the command NEXT, once and repeated (spec/41_next.md R61, R62, R65, R66). -/

namespace Sys2Proof.Machine

variable {s : State}

@[simp] theorem drawnWith_words (d : Word) (s : State) : (drawnWith d s).words = transition s.words := rfl

/-- Settles O22: NEXT draws a word, or is refused unseeded; its word and its transition are those of R57 and R58. -/
theorem nextEffectAndFrame : Obligations.NextEffectAndFrame :=
  ⟨fun _ => rfl, fun _ => exec_next_seeded, fun _ => exec_reader_unseeded rfl, fun _ => out_of_s1_zero, transition_zero,
    outputWordFormula.2 1#64 3#64 4#64, transitionClosedForm.2⟩

/-- Settles O21: the transition is injective and fixes the all-zero state, whose `s[1]` is 0. -/
theorem zeroIsTheOnlyPreimageOfZero : Obligations.ZeroIsTheOnlyPreimageOfZero := by
  refine ⟨out_of_s1_zero rfl, transition_zero, fun w => (transition_eq_zero_iff w).1, fun s hs hw => ?_⟩
  refine ⟨_, exec_next_seeded hs, ?_, ?_⟩
  · rw [drawnWith_words, hw, transition_zero]
  · rw [drawnWith_rsp, hw, out_of_s1_zero rfl]

/-- One whole NEXT on a seeded machine: the output word, one transition, one pulse, and SEEDED kept (R66). -/
theorem transaction_next (hs : s.seeded = true) :
    ∃ t, transaction .next s = some (t, ⟨.ok, out s.words⟩) ∧ t.seeded = true ∧ t.words = transition s.words
      ∧ t.stepPulses = s.stepPulses + 1 := by
  refine ⟨takeResponse (drawnWith (out s.words) (accept s)), ?_, hs, rfl, rfl⟩
  rw [transaction, exec_next_seeded (s := accept s) hs]
  rfl

/-- Settles O23, by induction on the number of NEXT commands, from every seeded state. -/
theorem nextSequence : Obligations.NextSequence := by
  intro n
  induction n with
  | zero => exact fun s _ => ⟨s, rfl, rfl, rfl⟩
  | succ n ih =>
    intro s hs
    obtain ⟨t, hnext, hseeded, hwords, hpulses⟩ := transaction_next hs
    obtain ⟨u, hrest, huwords, hupulses⟩ := ih t hseeded
    rw [hwords] at hrest huwords
    refine ⟨u, ?_, huwords, by omega⟩
    rw [List.replicate_succ, transactions_cons hnext hrest, List.range_succ_eq_map, List.map_cons, List.map_map]
    rfl

end Sys2Proof.Machine
end

