-- ==== Sys2Proof/Proofs/SignificantBits.lean ====
section
/-! PROOF. Family scalers: numbers that fit a significand, what `rne` can give, and where it gives 0 or the next power of two
(spec/00_scope.md R8). -/

namespace Sys2Proof.Machine

/-! ## Bit lengths -/

theorem bitlen_eq_succ_iff {n k : Nat} : bitlen n = k + 1 ↔ 2 ^ k ≤ n ∧ n < 2 ^ (k + 1) := by
  have hlow := bitlen_le_iff n k
  have hhigh := bitlen_le_iff n (k + 1)
  omega

theorem bitlen_eq_of_bounds {n k : Nat} (hk : 0 < k) (hlow : 2 ^ (k - 1) ≤ n) (hhigh : n < 2 ^ k) : bitlen n = k := by
  obtain ⟨l, rfl⟩ := Nat.exists_eq_add_one.2 hk
  exact bitlen_eq_succ_iff.2 ⟨hlow, hhigh⟩

theorem bitlen_two_pow (k : Nat) : bitlen (2 ^ k) = k + 1 :=
  bitlen_eq_succ_iff.2 ⟨le_rfl, Nat.pow_lt_pow_right (by omega) (by omega)⟩

/-- Appending `j` bits below a positive number makes it `j` bits longer. -/
theorem bitlen_mul_two_pow_add {n j r : Nat} (hn : n ≠ 0) (hr : r < 2 ^ j) : bitlen (n * 2 ^ j + r) = bitlen n + j := by
  obtain ⟨l, hl⟩ := Nat.exists_eq_add_one.2 (bitlen_pos hn)
  obtain ⟨hlow, hhigh⟩ := bitlen_eq_succ_iff.1 hl
  rw [hl, add_right_comm, bitlen_eq_succ_iff, pow_add, add_right_comm, pow_add]
  constructor
  · exact (Nat.mul_le_mul_right _ hlow).trans (Nat.le_add_right ..)
  · calc n * 2 ^ j + r < (n + 1) * 2 ^ j := by rw [Nat.succ_mul]; omega
      _ ≤ 2 ^ (l + 1) * 2 ^ j := Nat.mul_le_mul_right _ hhigh

theorem bitlen_mul_two_pow {n : Nat} (hn : n ≠ 0) (j : Nat) : bitlen (n * 2 ^ j) = bitlen n + j :=
  bitlen_mul_two_pow_add hn (Nat.two_pow_pos j)

theorem bitlen_two_pow_sub_one (k : Nat) : bitlen (2 ^ k - 1) = k := by
  cases k with
  | zero => rfl
  | succ k =>
    have hpos := Nat.two_pow_pos k
    exact bitlen_eq_succ_iff.2 (by rw [pow_succ]; omega)

/-! ## Numbers that need no rounding -/

/-- `m` has at most `p` significant bits: it is a whole number of units of its last kept bit. -/
def FitsBits (m p : Nat) : Prop := 2 ^ (bitlen m - p) ∣ m

theorem fitsBits_of_bitlen_le {n p : Nat} (h : bitlen n ≤ p) : FitsBits n p := by
  rw [FitsBits, Nat.sub_eq_zero_of_le h]
  exact one_dvd n

theorem FitsBits.mul_two_pow {m p : Nat} (h : FitsBits m p) (j : Nat) : FitsBits (m * 2 ^ j) p := by
  by_cases hm : m = 0
  · simp [hm, FitsBits]
  · calc 2 ^ (bitlen (m * 2 ^ j) - p) ∣ 2 ^ (bitlen m - p + j) := by
          rw [bitlen_mul_two_pow hm]; exact pow_dvd_pow 2 (by omega)
      _ = 2 ^ (bitlen m - p) * 2 ^ j := pow_add ..
      _ ∣ m * 2 ^ j := Nat.mul_dvd_mul_right h _

/-! ## Rounded numbers -/

/-- The kept bits of `a * 2^sh + r`: `a`, or the next number when `r` is more than one half or one half beside an odd `a`. -/
theorem roundedQuotient_mul_add {a r sh : Nat} (hr : r < 2 ^ sh) :
    roundedQuotient (a * 2 ^ sh + r) sh = if r > 2 ^ (sh - 1) ∨ (r = 2 ^ (sh - 1) ∧ a % 2 = 1) then a + 1 else a := by
  have hquot : (a * 2 ^ sh + r) / 2 ^ sh = a := by
    rw [mul_comm, Nat.mul_add_div (by positivity), Nat.div_eq_of_lt hr, add_zero]
  have hrem : (a * 2 ^ sh + r) % 2 ^ sh = r := by rw [Nat.mul_add_mod', Nat.mod_eq_of_lt hr]
  rw [roundedQuotient, hquot, hrem]

/-- A number that fits is not rounded. -/
theorem FitsBits.rne_eq {m p : Nat} (h : FitsBits m p) : rne m p = m := by
  rcases le_or_gt (bitlen m) p with hlen | hlen
  · exact rne_eq_self hlen
  · have hrem : m % 2 ^ (bitlen m - p) = 0 := Nat.mod_eq_zero_of_dvd h
    have hhalf := Nat.two_pow_pos (bitlen m - p - 1)
    rw [rne_eq_roundedQuotient_mul hlen, roundedQuotient, if_neg (by omega), Nat.div_mul_cancel h]

/-- A rounded number fits, also when rounding carried into the next power of two. -/
theorem fitsBits_rne {n p : Nat} (hp : 0 < p) : FitsBits (rne n p) p := by
  rcases le_or_gt (bitlen n) p with hlen | hlen
  · rw [rne_eq_self hlen]
    exact fitsBits_of_bitlen_le hlen
  · rw [rne_eq_roundedQuotient_mul hlen]
    refine FitsBits.mul_two_pow ?_ _
    rcases (roundedQuotient_le hlen).lt_or_eq with hq | hq
    · exact fitsBits_of_bitlen_le ((bitlen_le_iff _ _).2 hq)
    · rw [hq, FitsBits, bitlen_two_pow]
      exact pow_dvd_pow 2 (by omega)

/-- Rounding goes up to the next power of two at most. -/
theorem rne_le_two_pow_bitlen (n p : Nat) : rne n p ≤ 2 ^ bitlen n := by
  rcases le_or_gt (bitlen n) p with hlen | hlen
  · rw [rne_eq_self hlen]
    exact (lt_two_pow_bitlen n).le
  · rw [rne_eq_roundedQuotient_mul hlen]
    calc roundedQuotient n (bitlen n - p) * 2 ^ (bitlen n - p) ≤ 2 ^ p * 2 ^ (bitlen n - p) :=
          Nat.mul_le_mul_right _ (roundedQuotient_le hlen)
      _ = 2 ^ bitlen n := by rw [← pow_add, Nat.add_sub_cancel' hlen.le]

theorem rne_le_two_pow {n k : Nat} (p : Nat) (hn : n < 2 ^ k) : rne n p ≤ 2 ^ k :=
  (rne_le_two_pow_bitlen n p).trans (Nat.pow_le_pow_right (by omega) ((bitlen_le_iff n k).2 hn))

/-- The kept bits begin with the leading 1 of `n`. -/
theorem le_div_two_pow {n p : Nat} (hp : 0 < p) (h : p < bitlen n) : 2 ^ (p - 1) ≤ n / 2 ^ (bitlen n - p) := by
  rw [Nat.le_div_iff_mul_le (by positivity), ← pow_add, show p - 1 + (bitlen n - p) = bitlen n - 1 by omega]
  exact two_pow_bitlen_le (by rintro rfl; simp at h)

/-- The kept bits number `p`. -/
theorem div_two_pow_lt {n p : Nat} (h : p ≤ bitlen n) : n / 2 ^ (bitlen n - p) < 2 ^ p := by
  rw [Nat.div_lt_iff_lt_mul (by positivity), ← pow_add, Nat.add_sub_cancel' h]
  exact lt_two_pow_bitlen n

theorem rne_eq_zero_iff {n p : Nat} (hp : 0 < p) : rne n p = 0 ↔ n = 0 := by
  constructor
  · intro hzero
    rcases le_or_gt (bitlen n) p with hlen | hlen
    · rwa [rne_eq_self hlen] at hzero
    · have hlow := le_div_two_pow hp hlen
      have hpos := Nat.two_pow_pos (p - 1)
      rw [rne_eq_roundedQuotient_mul hlen, Nat.mul_eq_zero] at hzero
      have hquot := hzero.resolve_right (Nat.two_pow_pos _).ne'
      have hcases := roundedQuotient_cases n (bitlen n - p)
      omega
  · rintro rfl
    simp [rne]

/-- Rounding to `p` bits reaches `2^k` exactly from the last half unit below it, the tie included: `2^p - 1` is odd. -/
theorem rne_eq_two_pow_iff {n p k : Nat} (hp : 0 < p) (hpk : p < k) (hn : n < 2 ^ k) :
    rne n p = 2 ^ k ↔ 2 ^ k ≤ n + 2 ^ (k - p - 1) := by
  rcases lt_or_ge n (2 ^ (k - 1)) with hsmall | hlarge
  · have htop : 2 ^ (k - 1) * 2 = 2 ^ k := Nat.pow_pred_mul (by omega)
    have hle := rne_le_two_pow p hsmall
    have hhalf : 2 ^ (k - p - 1) ≤ 2 ^ (k - 1) := Nat.pow_le_pow_right (by omega) (by omega)
    omega
  · have hlen : bitlen n = k := bitlen_eq_of_bounds (hp.trans hpk) hlarge hn
    have hunit : 2 ^ (k - p - 1) * 2 = 2 ^ (k - p) := Nat.pow_pred_mul (by omega)
    have hwhole : 2 ^ k = 2 ^ p * 2 ^ (k - p) := by rw [← pow_add, Nat.add_sub_cancel' hpk.le]
    have heven : 2 ^ (p - 1) * 2 = 2 ^ p := Nat.pow_pred_mul hp
    have hdiv : n / 2 ^ (k - p) * 2 ^ (k - p) + n % 2 ^ (k - p) = n := Nat.div_add_mod' ..
    have hrem : n % 2 ^ (k - p) < 2 ^ (k - p) := Nat.mod_lt _ (by positivity)
    have hquot : n / 2 ^ (k - p) + 1 ≤ 2 ^ p := (Nat.div_lt_iff_lt_mul (by positivity)).2 (hwhole ▸ hn)
    have hcases := roundedQuotient_cases n (k - p)
    rw [rne_eq_roundedQuotient_mul (by omega), hlen, hwhole, Nat.mul_left_inj (by positivity)]
    rcases hquot.eq_or_lt with hlast | hbelow
    · rw [← hlast, Nat.succ_mul]
      omega
    · have hgap := Nat.mul_le_mul_right (2 ^ (k - p)) hbelow
      rw [Nat.succ_mul, Nat.succ_mul] at hgap
      omega

end Sys2Proof.Machine
end

