-- ==== Sys2Proof/Proofs/UnitFractions.lean ====
section
/-! PROOF. Family scalers: the response data that carry a number of [0, 1], in any format: its value, its ends and its fields
(spec/00_scope.md R9, spec/30_encoding.md R43). -/

namespace Sys2Proof.Machine

/-! ## `fpenc` -/

/-- The fields of a pattern, whatever its exponent: sign 0, the biased exponent, the significand without its leading 1 (R9). -/
theorem fpenc_eq_append {m : Nat} (hm : m ≠ 0) (k p ebits bias : Nat) :
    fpenc m k p ebits bias
      = 0#1 ++ BitVec.ofInt ebits ((bitlen m : Int) - 1 - k + bias) ++ BitVec.ofNat (p - 1) (significand m p % 2 ^ (p - 1)) := by
  simp only [fpenc, if_neg hm, significand]
  split <;> rfl

/-- A significand does not change when zeros are appended to its number. -/
theorem significand_mul_two_pow {m : Nat} (hm : m ≠ 0) (j p : Nat) : significand (m * 2 ^ j) p = significand m p := by
  unfold significand
  rw [bitlen_mul_two_pow hm]
  rcases le_or_gt (bitlen m + j) p with h | h
  · rw [if_pos h, if_pos (by omega), mul_assoc, ← pow_add, show j + (p - (bitlen m + j)) = p - bitlen m by omega]
  · rw [if_neg (by omega)]
    split
    case isTrue hlen =>
      rw [show j = p - bitlen m + (bitlen m + j - p) by omega, pow_add, ← mul_assoc,
        show bitlen m + (p - bitlen m + (bitlen m + j - p)) - p = bitlen m + j - p by omega, Nat.mul_div_cancel _ (by positivity)]
    case isFalse hlen =>
      rw [show bitlen m + j - p = bitlen m - p + j by omega, pow_add, Nat.mul_div_mul_right _ _ (by positivity)]

/-- The pattern depends on the number `m / 2^k` alone: zeros appended to `m` are taken back by `k`. -/
theorem fpenc_mul_two_pow (m j k p ebits bias : Nat) : fpenc (m * 2 ^ j) (k + j) p ebits bias = fpenc m k p ebits bias := by
  by_cases hm : m = 0
  · simp [hm]
  · have hexp : ((bitlen m + j : Nat) : Int) - 1 - (k + j : Nat) + bias = bitlen m - 1 - k + bias := by omega
    rw [fpenc_eq_append (by positivity), fpenc_eq_append hm, bitlen_mul_two_pow hm, significand_mul_two_pow hm, hexp]

/-! ## The formats and their numbers in [0, 1] -/

/-- What binary32 and binary64 have in common: a significand with a leading 1, a bias below the exponent of the infinities, and a
pattern that a response holds (R9, R68). -/
structure IsFormat (p ebits bias : Nat) : Prop where
  pos : 0 < p
  bias_lt : bias < 2 ^ ebits - 1
  width : 1 + ebits + (p - 1) ≤ 64

theorem binary32 : IsFormat 24 8 127 := ⟨by decide, by decide, by decide⟩

theorem binary64 : IsFormat 53 11 1023 := ⟨by decide, by decide, by decide⟩

/-- `m / 2^k` is a number of [0, 1] with at most `p` significant bits. -/
structure IsUnitFraction (m k p : Nat) : Prop where
  le : m ≤ 2 ^ k
  fits : FitsBits m p

theorem isUnitFraction_of_lt {n p : Nat} (h : n < 2 ^ p) : IsUnitFraction n p p :=
  ⟨h.le, fitsBits_of_bitlen_le ((bitlen_le_iff n p).2 h)⟩

theorem isUnitFraction_zero (k p : Nat) : IsUnitFraction 0 k p := ⟨Nat.zero_le _, fitsBits_of_bitlen_le (Nat.zero_le p)⟩

theorem isUnitFraction_two_pow (k : Nat) {p : Nat} (hp : 0 < p) : IsUnitFraction (2 ^ k) k p := by
  have hone : FitsBits (1 * 2 ^ k) p := (fitsBits_of_bitlen_le hp).mul_two_pow k
  exact ⟨le_rfl, by rwa [one_mul] at hone⟩

theorem isUnitFraction_rne {n p k : Nat} (hp : 0 < p) (h : n < 2 ^ k) : IsUnitFraction (rne n p) k p :=
  ⟨rne_le_two_pow p h, fitsBits_rne hp⟩

/-- The response data that carry `m / 2^k`: its pattern in the low bits, zeros above (R43, R70 to R73). -/
def fpWord (m k p ebits bias : Nat) : Word := (fpenc m k p ebits bias).setWidth 64

@[simp] theorem fpWord_zero (k p ebits bias : Nat) : fpWord 0 k p ebits bias = 0#64 := by simp [fpWord]

/-- Two numbers over the same power of two are equal when their numerators are. -/
theorem scaled_inj {m n k : Nat} : scaled m k = scaled n k ↔ m = n := by
  rw [scaled, scaled, div_left_inj' (by positivity), Nat.cast_inj]

section Patterns

variable {m k p ebits bias : Nat} (F : IsFormat p ebits bias)

include F

theorem toNat_fpWord : (fpWord m k p ebits bias).toNat = (fpenc m k p ebits bias).toNat := by
  rw [fpWord, BitVec.toNat_setWidth, Nat.mod_eq_of_lt]
  exact (fpenc m k p ebits bias).isLt.trans_le (Nat.pow_le_pow_right (by omega) F.width)

variable (hk : k < bias)

include hk

/-- The pattern of 1.0, written as `2^k / 2^k`, has the bias as its exponent and an empty fraction. -/
theorem fpWord_two_pow : fpWord (2 ^ k) k p ebits bias = BitVec.ofNat 64 (bias * 2 ^ (p - 1)) := by
  have hone : fpenc (2 ^ k) k p ebits bias = fpenc 1 0 p ebits bias := by
    simpa using fpenc_mul_two_pow 1 k 0 p ebits bias
  have hlen : bitlen 1 = 1 := rfl
  have hexp : biasedExponent 1 0 bias = bias := by simp [biasedExponent, hlen]
  have hfrac : significand 1 p = 2 ^ (p - 1) := by rw [significand, hlen, if_pos (Nat.succ_le_of_lt F.pos), one_mul]
  have hbias := F.bias_lt
  have hfield : bias < 2 ^ ebits := by omega
  have hnat : (fpWord (2 ^ k) k p ebits bias).toNat = bias * 2 ^ (p - 1) := by
    rw [toNat_fpWord F, hone, toNat_fpenc one_ne_zero F.pos (by omega) (by rwa [hexp]), hexp, hfrac, Nat.sub_self, add_zero]
  rw [← hnat, BitVec.ofNat_toNat, BitVec.setWidth_eq]

/-- The pattern stands for exactly `m / 2^k` (R9). -/
theorem fpValue_fpWord (hm : IsUnitFraction m k p) :
    fpValue p ebits bias (fpWord m k p ebits bias).toNat = some (scaled m k) := by
  rw [toNat_fpWord F]
  exact fpValue_fpenc F.pos F.bias_lt hk hm.le hm.fits

/-- Different numbers have different patterns. -/
theorem fpWord_inj {n : Nat} (hm : IsUnitFraction m k p) (hn : IsUnitFraction n k p) :
    fpWord m k p ebits bias = fpWord n k p ebits bias ↔ m = n := by
  refine ⟨fun h => ?_, by rintro rfl; rfl⟩
  have hvalue := fpValue_fpWord F hk hm
  rw [h, fpValue_fpWord F hk hn, Option.some_inj] at hvalue
  exact (scaled_inj.1 hvalue).symm

/-- The pattern is 0 for 0 alone. -/
theorem fpWord_eq_zero_iff (hm : IsUnitFraction m k p) : fpWord m k p ebits bias = 0#64 ↔ m = 0 := by
  rw [← fpWord_zero k p ebits bias, fpWord_inj F hk hm (isUnitFraction_zero k p)]

/-- The pattern of 1.0 has the bias as its exponent and an empty fraction, and stands for 1 alone. -/
theorem fpWord_eq_one_iff (hm : IsUnitFraction m k p) :
    fpWord m k p ebits bias = BitVec.ofNat 64 (bias * 2 ^ (p - 1)) ↔ m = 2 ^ k := by
  rw [← fpWord_two_pow F hk, fpWord_inj F hk hm (isUnitFraction_two_pow k F.pos)]

/-- The exponent field and the sign bit of a positive number: above 0, and below that of 1.0 unless the number is 1 (R75). -/
theorem fpWord_exponent (h0 : m ≠ 0) (hm : m ≤ 2 ^ k) :
    1 ≤ (fpWord m k p ebits bias).toNat / 2 ^ (p - 1) ∧ (fpWord m k p ebits bias).toNat / 2 ^ (p - 1) ≤ bias
    ∧ (m < 2 ^ k → (fpWord m k p ebits bias).toNat / 2 ^ (p - 1) < bias) := by
  obtain ⟨hlow, hhigh⟩ := biasedExponent_bounds bias h0 hm
  have hbias := F.bias_lt
  rw [toNat_fpWord F, toNat_fpenc_div h0 F.pos hk (by omega)]
  refine ⟨by omega, hhigh, fun hlt => ?_⟩
  have hlen := (bitlen_le_iff m k).2 hlt
  have hpos := bitlen_pos h0
  unfold biasedExponent
  omega

/-- The sign bit is 0. -/
theorem fpWord_lt (hm : m ≤ 2 ^ k) : (fpWord m k p ebits bias).toNat < 2 ^ (ebits + (p - 1)) := by
  have hbias := F.bias_lt
  rw [pow_add, ← Nat.div_lt_iff_lt_mul (by positivity)]
  by_cases h0 : m = 0
  · simp [h0]
  · have hexp := (fpWord_exponent F hk h0 hm).2.1
    omega

/-- Every pattern is +0.0, 1.0 or that of a normal number between them (R75). -/
theorem fpWord_cases (hm : IsUnitFraction m k p) :
    fpWord m k p ebits bias = 0#64 ∨ fpWord m k p ebits bias = BitVec.ofNat 64 (bias * 2 ^ (p - 1))
    ∨ 1 ≤ (fpWord m k p ebits bias).toNat / 2 ^ (p - 1) ∧ (fpWord m k p ebits bias).toNat / 2 ^ (p - 1) < bias := by
  rw [fpWord_eq_zero_iff F hk hm, fpWord_eq_one_iff F hk hm]
  by_cases h0 : m = 0
  · exact .inl h0
  · obtain ⟨hlow, -, hbelow⟩ := fpWord_exponent F hk h0 hm.le
    exact .inr (hm.le.eq_or_lt.imp_right fun hlt => ⟨hlow, hbelow hlt⟩)

/-- A rounded numerator gives +0.0 for 0 alone. -/
theorem fpWord_rne_eq_zero_iff {n : Nat} (hn : n < 2 ^ k) : fpWord (rne n p) k p ebits bias = 0#64 ↔ n = 0 := by
  rw [fpWord_eq_zero_iff F hk (isUnitFraction_rne F.pos hn), rne_eq_zero_iff F.pos]

/-- A rounded numerator gives 1.0 from the last half unit below `2^k` on. -/
theorem fpWord_rne_eq_one_iff {n : Nat} (hpk : p < k) (hn : n < 2 ^ k) :
    fpWord (rne n p) k p ebits bias = BitVec.ofNat 64 (bias * 2 ^ (p - 1)) ↔ 2 ^ k ≤ n + 2 ^ (k - p - 1) := by
  rw [fpWord_eq_one_iff F hk (isUnitFraction_rne F.pos hn), rne_eq_two_pow_iff F.pos hpk hn]

/-- The pattern of `b` units of its last bit, when `b` fills the `p` bits. -/
theorem toNat_fpWord_mul_two_pow {b s : Nat} (hs : p + s ≤ k) (hlow : 2 ^ (p - 1) ≤ b) (hhigh : b < 2 ^ p) :
    (fpWord (b * 2 ^ s) k p ebits bias).toNat = (bias + (p + s) - 1 - k) * 2 ^ (p - 1) + (b - 2 ^ (p - 1)) := by
  have hp := F.pos
  have hbias := F.bias_lt
  have h0 : b ≠ 0 := by have := Nat.two_pow_pos (p - 1); omega
  have hlen : bitlen b = p := bitlen_eq_of_bounds hp hlow hhigh
  have hexp : biasedExponent (b * 2 ^ s) k bias = bias + (p + s) - 1 - k := by
    rw [biasedExponent, bitlen_mul_two_pow h0, hlen]
  have hfrac : significand (b * 2 ^ s) p = b := by
    rw [significand_mul_two_pow h0, significand, hlen, if_pos le_rfl, Nat.sub_self, pow_zero, mul_one]
  rw [toNat_fpWord F, toNat_fpenc (by positivity) hp hk (by omega), hexp, hfrac]

/-- A unit more in the last of the `p` bits is one more in the pattern. -/
theorem fpWord_succ {a s : Nat} (hs : p + s ≤ k) (hlow : 2 ^ (p - 1) ≤ a) (hhigh : a + 1 < 2 ^ p) :
    fpWord ((a + 1) * 2 ^ s) k p ebits bias = fpWord (a * 2 ^ s) k p ebits bias + 1#64 := by
  have hsucc := toNat_fpWord_mul_two_pow F hk (b := a + 1) hs (by omega) hhigh
  have hself := toNat_fpWord_mul_two_pow F hk (b := a) hs hlow (by omega)
  have hlt := (fpWord ((a + 1) * 2 ^ s) k p ebits bias).isLt
  apply BitVec.eq_of_toNat_eq
  rw [BitVec.toNat_add, BitVec.toNat_ofNat]
  omega

end Patterns

end Sys2Proof.Machine
end

