-- ==== Sys2Proof/Proofs/Scalers.lean ====
section
/-! PROOF. Family scalers: the results of F32CO, F32CC, F64CO and F64CC (spec/42_scalers.md R67, R70 to R75). -/

namespace Sys2Proof.Machine

/-! ## What each scaler computes -/

theorem toNat_shr64 (w : Word) (k : Nat) : (shr64 w k).toNat = w.toNat / 2 ^ k := by
  rw [shr64, BitVec.toNat_ushiftRight, Nat.shiftRight_eq_div_pow]

section Scalers

variable (w : Word)

theorem scaleF32CO_eq : scaleF32CO w = fpWord (w.toNat / 2 ^ 40) 24 24 8 127 := by
  simp only [scaleF32CO, fpWord, toNat_shr64]

theorem scaleF32CC_stepwise : scaleF32CC .stepwise w = fpWord (rne (w.toNat / 2 ^ 32) 24) 32 24 8 127 := by
  simp only [scaleF32CC, fpWord, toNat_shr64]

theorem scaleF32CC_exactQuotient :
    scaleF32CC .exactQuotient w = (fpquot (w.toNat / 2 ^ 32) (2 ^ 32 - 1) 24 8 127).setWidth 64 := by
  simp only [scaleF32CC, toNat_shr64]

theorem scaleF64CO_eq : scaleF64CO w = fpWord (w.toNat / 2 ^ 11) 53 53 11 1023 := by
  simp only [scaleF64CO, fpWord, toNat_shr64]

theorem scaleF64CC_stepwise : scaleF64CC .stepwise w = fpWord (rne w.toNat 53) 64 53 11 1023 := rfl

theorem scaleF64CC_exactQuotient :
    scaleF64CC .exactQuotient w = (fpquot w.toNat (2 ^ 64 - 1) 53 11 1023).setWidth 64 := rfl

/-- The reading that the spec takes (R69). -/
theorem scalerRounding_eq : scalerRounding = .stepwise := rfl

theorem toNat_div_two_pow_lt {j k : Nat} (h : j + k = 64) : w.toNat / 2 ^ j < 2 ^ k := by
  rw [Nat.div_lt_iff_lt_mul (by positivity), ← pow_add, add_comm, h]
  exact w.isLt

theorem isUnitFraction_f32co : IsUnitFraction (w.toNat / 2 ^ 40) 24 24 :=
  isUnitFraction_of_lt (toNat_div_two_pow_lt w rfl)

theorem isUnitFraction_f32cc : IsUnitFraction (rne (w.toNat / 2 ^ 32) 24) 32 24 :=
  isUnitFraction_rne (by omega) (toNat_div_two_pow_lt w rfl)

theorem isUnitFraction_f64co : IsUnitFraction (w.toNat / 2 ^ 11) 53 53 :=
  isUnitFraction_of_lt (toNat_div_two_pow_lt w rfl)

theorem isUnitFraction_f64cc : IsUnitFraction (rne w.toNat 53) 64 53 :=
  isUnitFraction_rne (by omega) w.isLt

end Scalers

/-! ## The numbers that the responses stand for -/

theorem value32_fpWord {m k : Nat} (hk : k < 127) (hm : IsUnitFraction m k 24) :
    value32 (fpWord m k 24 8 127) = some (scaled m k) := by
  have hlt := fpWord_lt binary32 hk hm.le
  rw [value32, Nat.mod_eq_of_lt (by omega), fpValue_fpWord binary32 hk hm]

theorem value64_fpWord {m k : Nat} (hk : k < 1023) (hm : IsUnitFraction m k 53) :
    value64 (fpWord m k 53 11 1023) = some (scaled m k) :=
  fpValue_fpWord binary64 hk hm

section Values

variable (w : Word)

theorem value32_scaleF32CO : value32 (scaleF32CO w) = some (scaled (w.toNat / 2 ^ 40) 24) := by
  rw [scaleF32CO_eq, value32_fpWord (by omega) (isUnitFraction_f32co w)]

theorem value32_scaleF32CC : value32 (scaleF32CC scalerRounding w) = some (scaled (rne (w.toNat / 2 ^ 32) 24) 32) := by
  rw [scalerRounding_eq, scaleF32CC_stepwise, value32_fpWord (by omega) (isUnitFraction_f32cc w)]

theorem value64_scaleF64CO : value64 (scaleF64CO w) = some (scaled (w.toNat / 2 ^ 11) 53) := by
  rw [scaleF64CO_eq, value64_fpWord (by omega) (isUnitFraction_f64co w)]

theorem value64_scaleF64CC : value64 (scaleF64CC scalerRounding w) = some (scaled (rne w.toNat 53) 64) := by
  rw [scalerRounding_eq, scaleF64CC_stepwise, value64_fpWord (by omega) (isUnitFraction_f64cc w)]

end Values

/-! ## The four results -/

/-- Settles O27: the data are the pattern of an exact fraction below 1, and a pattern tells its numerator. -/
theorem f32COResult : Obligations.F32COResult := by
  refine ⟨fun _ => rfl, fun _ => exec_reader_unseeded rfl, fun s hs => ⟨_, exec_f32co_seeded hs, ?_⟩, fun w n _ => ?_, by decide⟩
  · have hm := isUnitFraction_f32co (out s.words)
    have hn : (out s.words).toNat / 2 ^ 40 < 2 ^ 24 := toNat_div_two_pow_lt _ rfl
    refine ⟨?_, value32_scaleF32CO _, ?_⟩ <;> rw [scaleF32CO_eq]
    · exact fpWord_lt binary32 (by omega) hm.le
    · refine ⟨fun hlow => ?_, fun hhigh => ?_, fun hone => ?_⟩
      · rw [Nat.div_eq_of_lt hlow, fpWord_zero]
      · rw [show (out s.words).toNat / 2 ^ 40 = 2 ^ 24 - 1 by omega]
        decide
      · have htop := (fpWord_eq_one_iff binary32 (by omega) hm).1 hone
        omega
  · rw [value32_scaleF32CO, Option.some_inj, scaled_inj]

/-- Settles O28: the data are the pattern of the rounded numerator over `2^32`, and rounding reaches 0 and `2^32` where the rule says. -/
theorem f32CCResult : Obligations.F32CCResult := by
  refine ⟨fun _ => rfl, fun _ => exec_reader_unseeded rfl, fun s hs => ⟨_, exec_f32cc_seeded hs, ?_⟩, by decide, by decide,
    by decide, by decide⟩
  have hvalue := value32_scaleF32CC (out s.words)
  have hn : (out s.words).toNat / 2 ^ 32 < 2 ^ 32 := toNat_div_two_pow_lt _ rfl
  rw [scalerRounding_eq, scaleF32CC_stepwise] at hvalue ⊢
  refine ⟨fpWord_lt binary32 (by omega) (isUnitFraction_f32cc _).le, hvalue, ?_, ?_, fun hbelow => ?_, fun hsmall => ?_⟩
  · exact .trans (by omega) (fpWord_rne_eq_zero_iff binary32 (by omega) hn).symm
  · exact .trans (by omega) (fpWord_rne_eq_one_iff binary32 (by omega) (by omega) hn).symm
  · rw [hbelow]
    decide
  · rwa [rne_eq_self ((bitlen_le_iff _ _).2 hsmall)] at hvalue ⊢

/-- Settles O29: as O27, in binary64. -/
theorem f64COResult : Obligations.F64COResult := by
  refine ⟨fun _ => rfl, fun _ => exec_reader_unseeded rfl, fun s hs => ⟨_, exec_f64co_seeded hs, ?_⟩, fun w n _ => ?_, by decide⟩
  · have hm := isUnitFraction_f64co (out s.words)
    have hn : (out s.words).toNat / 2 ^ 11 < 2 ^ 53 := toNat_div_two_pow_lt _ rfl
    refine ⟨?_, value64_scaleF64CO _, ?_⟩ <;> rw [scaleF64CO_eq]
    · exact fpWord_lt binary64 (by omega) hm.le
    · refine ⟨fun hlow => ?_, fun hhigh => ?_, fun hone => ?_⟩
      · rw [Nat.div_eq_of_lt hlow, fpWord_zero]
      · rw [show (out s.words).toNat / 2 ^ 11 = 2 ^ 53 - 1 by omega]
        decide
      · have htop := (fpWord_eq_one_iff binary64 (by omega) hm).1 hone
        omega
  · rw [value64_scaleF64CO, Option.some_inj, scaled_inj]

/-- Settles O30: as O28, in binary64. -/
theorem f64CCResult : Obligations.F64CCResult := by
  refine ⟨fun _ => rfl, fun _ => exec_reader_unseeded rfl, fun s hs => ⟨_, exec_f64cc_seeded hs, ?_⟩, by decide, by decide,
    by decide, by decide, by decide, by decide⟩
  have hvalue := value64_scaleF64CC (out s.words)
  have hw := (out s.words).isLt
  rw [scalerRounding_eq, scaleF64CC_stepwise] at hvalue ⊢
  refine ⟨fpWord_lt binary64 (by omega) (isUnitFraction_f64cc _).le, hvalue, ?_, ?_, fun hsmall => ?_⟩
  · rw [fpWord_rne_eq_zero_iff binary64 (by omega) hw, BitVec.toNat_eq, BitVec.toNat_zero]
  · exact .trans (by omega) (fpWord_rne_eq_one_iff binary64 (by omega) (by omega) hw).symm
  · rwa [rne_eq_self ((bitlen_le_iff _ _).2 hsmall)] at hvalue ⊢

/-! ## What holds of all four -/

theorem scaled_nonneg (m k : Nat) : 0 ≤ scaled m k := by
  unfold scaled
  positivity

theorem scaled_lt_one {m k : Nat} (h : m < 2 ^ k) : scaled m k < 1 :=
  (div_lt_one (by positivity)).2 (by exact_mod_cast h)

theorem scaled_le_one {m k : Nat} (h : m ≤ 2 ^ k) : scaled m k ≤ 1 :=
  div_le_one_of_le₀ (by exact_mod_cast h) (by positivity)

@[simp] theorem scaled_zero (k : Nat) : scaled 0 k = 0 := by simp [scaled]

@[simp] theorem scaled_two_pow (k : Nat) : scaled (2 ^ k) k = 1 := by simp [scaled]

/-- Settles O31: each result is a fraction below or up to 1; the closed ones reach 0 and 1 from the least and the greatest raw word. -/
theorem scalersStayInRange : Obligations.ScalersStayInRange := by
  have hzero32 : rne ((0#64).toNat / 2 ^ 32) 24 = 0 := by decide
  have hone32 : rne ((BitVec.allOnes 64).toNat / 2 ^ 32) 24 = 2 ^ 32 := by decide
  have hzero64 : rne (0#64).toNat 53 = 0 := by decide
  have hone64 : rne (BitVec.allOnes 64).toNat 53 = 2 ^ 64 := by decide
  refine ⟨fun s hs => ⟨?_, ?_, ?_, ?_⟩, ⟨0#64, ?_⟩, ⟨BitVec.allOnes 64, ?_⟩, ⟨0#64, ?_⟩, ⟨BitVec.allOnes 64, ?_⟩⟩
  · exact ⟨_, _, exec_f32co_seeded hs, value32_scaleF32CO _, scaled_nonneg .., scaled_lt_one (toNat_div_two_pow_lt _ rfl)⟩
  · exact ⟨_, _, exec_f64co_seeded hs, value64_scaleF64CO _, scaled_nonneg .., scaled_lt_one (toNat_div_two_pow_lt _ rfl)⟩
  · exact ⟨_, _, exec_f32cc_seeded hs, value32_scaleF32CC _, scaled_nonneg .., scaled_le_one (isUnitFraction_f32cc _).le⟩
  · exact ⟨_, _, exec_f64cc_seeded hs, value64_scaleF64CC _, scaled_nonneg .., scaled_le_one (isUnitFraction_f64cc _).le⟩
  · rw [value32_scaleF32CC, hzero32, scaled_zero]
  · rw [value32_scaleF32CC, hone32, scaled_two_pow]
  · rw [value64_scaleF64CC, hzero64, scaled_zero]
  · rw [value64_scaleF64CC, hone64, scaled_two_pow]

/-- Settles O32: the four results are patterns of numbers of [0, 1], so `fpWord_cases` holds of each. -/
theorem scalerResultsAreZeroOrNormal : Obligations.ScalerResultsAreZeroOrNormal := by
  intro w
  rw [scalerRounding_eq, scaleF32CO_eq, scaleF32CC_stepwise, scaleF64CO_eq, scaleF64CC_stepwise]
  simp only [List.forall_mem_cons, List.not_mem_nil, false_implies, implies_true, and_true]
  refine ⟨⟨?_, ?_⟩, ?_, ?_⟩
  · exact fpWord_cases binary32 (by omega) (isUnitFraction_f32co w)
  · exact fpWord_cases binary32 (by omega) (isUnitFraction_f32cc w)
  · exact fpWord_cases binary64 (by omega) (isUnitFraction_f64co w)
  · exact fpWord_cases binary64 (by omega) (isUnitFraction_f64cc w)

/-- Settles O26: a scaler draws one word, as NEXT does. -/
theorem scalersDrawOneWordLikeNext : Obligations.ScalersDrawOneWordLikeNext := by
  intro i hi
  obtain ⟨hreads, hjump⟩ : readsState i = true ∧ i ≠ .jump := by
    revert i
    decide
  obtain ⟨f, hf⟩ := exec_eq_drawWord hreads hjump
  exact ⟨f, fun s hs => ⟨(hf s).trans (drawWord_seeded f hs), exec_next_seeded hs⟩⟩

end Sys2Proof.Machine
end

