-- ==== Sys2Proof/Proofs/ScalerDivision.lean ====
section
/-! PROOF. Family scalers: the stepwise division and the exact one (spec/42_scalers.md R69, R79). -/

namespace Sys2Proof.Machine

/-! ## The integer quotient with its sticky bit -/

/-- `2 t / d` cut to an integer whose last bit says whether anything remains: what `fpquot` rounds, see `fpquot_eq`. -/
def stickyQuotient (t d : Nat) : Nat := 2 * (t / d) + if t % d = 0 then 0 else 1

theorem fpquot_eq (n d p ebits bias : Nat) :
    fpquot n d p ebits bias
      = fpenc (rne (stickyQuotient (n * 2 ^ (p + 2 + bitlen d)) d) p) (p + 2 + bitlen d + 1) p ebits bias := rfl

theorem stickyQuotient_mul {d : Nat} (a : Nat) (hd : 0 < d) : stickyQuotient (a * d) d = 2 * a := by
  rw [stickyQuotient, Nat.mul_div_cancel _ hd, if_pos (Nat.mul_mod_left ..), add_zero]

theorem stickyQuotient_add_mul {d : Nat} (t a : Nat) (hd : 0 < d) :
    stickyQuotient (t + a * d) d = 2 * a + stickyQuotient t d := by
  rw [stickyQuotient, stickyQuotient, Nat.add_mul_div_right _ _ hd, Nat.add_mul_mod_self_right]
  omega

theorem stickyQuotient_pos {t d : Nat} (ht : 0 < t) : 0 < stickyQuotient t d := by
  have hdiv := Nat.div_add_mod t d
  rw [stickyQuotient]
  split
  case isTrue hrem =>
    have hquot : t / d ≠ 0 := fun hquot => by rw [hquot, hrem] at hdiv; omega
    omega
  case isFalse => omega

theorem stickyQuotient_lt {t a d : Nat} (h : t < a * d) : stickyQuotient t d < 2 * a := by
  have hquot := Nat.div_lt_of_lt_mul (Nat.mul_comm a d ▸ h)
  rw [stickyQuotient]
  split <;> omega

/-- Dividing by a power of two is exact for a numerator that fits. -/
theorem fpquot_two_pow {m p : Nat} (hm : FitsBits m p) (k ebits bias : Nat) :
    fpquot m (2 ^ k) p ebits bias = fpenc m k p ebits bias := by
  have hnum : m * 2 ^ (p + 2 + (k + 1)) = m * 2 ^ (p + 3) * 2 ^ k := by rw [mul_assoc, ← pow_add]; congr 2; omega
  have htwice : 2 * (m * 2 ^ (p + 3)) = m * 2 ^ (p + 4) := by rw [pow_succ 2 (p + 3)]; ring
  rw [fpquot_eq, bitlen_two_pow, hnum, stickyQuotient_mul _ (by positivity), htwice, (hm.mul_two_pow _).rne_eq,
    show p + 2 + (k + 1) + 1 = k + (p + 4) by omega, fpenc_mul_two_pow]

/-- Settles O33: the divisors round to powers of two, and dividing by these is exact. -/
theorem stepwiseDivisionReduces : Obligations.StepwiseDivisionReduces := by
  intro w
  have h24 : rne (2 ^ 24) 24 = 2 ^ 24 := by decide
  have h32 : rne (2 ^ 32 - 1) 24 = 2 ^ 32 := by decide
  have h53 : rne (2 ^ 53) 53 = 2 ^ 53 := by decide
  have h64 : rne (2 ^ 64 - 1) 53 = 2 ^ 64 := by decide
  have hf32co := (isUnitFraction_f32co w).fits
  have hf64co := (isUnitFraction_f64co w).fits
  rw [h24, h32, h53, h64, hf32co.rne_eq, hf64co.rne_eq, fpquot_two_pow hf32co, fpquot_two_pow (isUnitFraction_f32cc w).fits,
    fpquot_two_pow hf64co, fpquot_two_pow (isUnitFraction_f64cc w).fits]
  exact ⟨scaleF32CO_eq w, scaleF32CC_stepwise w, scaleF64CO_eq w, scaleF64CC_stepwise w⟩

/-! ## The exact quotient by `2^k - 1` -/

/-- The quotient by `2^k - 1` exceeds the numerator by a little: by less than its last bit, and by less than half a unit of its last of
`p` bits. -/
theorem stickyQuotient_pred_two_pow {n p k : Nat} (h0 : n ≠ 0) (hn : n < 2 ^ k - 1) (hpk : p + 2 ≤ k) :
    ∃ δ, stickyQuotient (n * 2 ^ (p + 2 + k)) (2 ^ k - 1) = n * 2 ^ (p + 3) + δ
      ∧ 0 < δ ∧ δ < 2 ^ (p + 3) ∧ δ < 2 ^ (bitlen n + 2) := by
  obtain ⟨d, hd⟩ : ∃ d, 2 ^ k = d + 1 := Nat.exists_eq_add_one.2 (Nat.two_pow_pos k)
  rw [hd, Nat.add_sub_cancel] at hn ⊢
  have hwide : 2 ^ (p + 2) ≤ 2 * d := by
    have := Nat.pow_le_pow_right (n := 2) (by omega) hpk
    omega
  have hunit : n * 2 ^ (p + 2) < 2 ^ (p + 2) * d := by rw [mul_comm]; exact Nat.mul_lt_mul_of_pos_left hn (by positivity)
  have hkept : n * 2 ^ (p + 2) < 2 ^ (bitlen n + 1) * d :=
    calc n * 2 ^ (p + 2) < 2 ^ bitlen n * 2 ^ (p + 2) := Nat.mul_lt_mul_of_pos_right (lt_two_pow_bitlen n) (by positivity)
      _ ≤ 2 ^ bitlen n * (2 * d) := Nat.mul_le_mul_left _ hwide
      _ = 2 ^ (bitlen n + 1) * d := by rw [pow_succ, mul_assoc]
  refine ⟨stickyQuotient (n * 2 ^ (p + 2)) d, ?_, stickyQuotient_pos (by positivity), ?_, ?_⟩
  · rw [pow_add 2 _ k, hd, ← mul_assoc, Nat.mul_succ, add_comm, stickyQuotient_add_mul _ _ (by omega), pow_succ 2 (p + 2)]
    ring
  · exact (stickyQuotient_lt hunit).trans_eq (by rw [pow_succ 2 (p + 2), mul_comm])
  · exact (stickyQuotient_lt hkept).trans_eq (by rw [pow_succ 2 (bitlen n + 1), mul_comm])

/-- With a little more below the last bit of `n`, a tie is rounded up, and everything else as `n` itself. -/
theorem roundedQuotient_sticky {n s j δ : Nat} (hs : 0 < s) (hpos : 0 < δ) (hlt : δ < 2 ^ j) :
    roundedQuotient (n * 2 ^ j + δ) (s + j) = if 2 ^ (s - 1) ≤ n % 2 ^ s then n / 2 ^ s + 1 else n / 2 ^ s := by
  have hrem : n % 2 ^ s < 2 ^ s := Nat.mod_lt _ (by positivity)
  have hhalf : 2 ^ (s + j - 1) = 2 ^ (s - 1) * 2 ^ j := by rw [← pow_add]; congr 1; omega
  have hsplit : n * 2 ^ j + δ = n / 2 ^ s * 2 ^ (s + j) + (n % 2 ^ s * 2 ^ j + δ) := by
    rw [pow_add, ← mul_assoc, ← add_assoc, ← add_mul, Nat.div_add_mod']
  have hbelow : n % 2 ^ s * 2 ^ j + δ < 2 ^ (s + j) := by
    have := Nat.mul_le_mul_right (2 ^ j) hrem
    rw [Nat.succ_mul, ← pow_add] at this
    omega
  rw [hsplit, roundedQuotient_mul_add hbelow, hhalf]
  rcases lt_or_ge (n % 2 ^ s) (2 ^ (s - 1)) with h | h
  · have := Nat.mul_le_mul_right (2 ^ j) h
    rw [Nat.succ_mul] at this
    rw [if_neg (by omega), if_neg (by omega)]
  · have := Nat.mul_le_mul_right (2 ^ j) h
    rw [if_pos (by omega), if_pos h]

/-- A numerator that fits takes no notice of a little more than it. -/
theorem rne_sticky_of_bitlen_le {n p δ : Nat} (h0 : n ≠ 0) (hlen : bitlen n ≤ p) (hlt : δ < 2 ^ (p + 3))
    (hhalf : δ < 2 ^ (bitlen n + 2)) : rne (n * 2 ^ (p + 3) + δ) p = n * 2 ^ (p + 3) := by
  have hnum : n * 2 ^ (p + 3) = n * 2 ^ (p - bitlen n) * 2 ^ (bitlen n + 3) := by rw [mul_assoc, ← pow_add]; congr 2; omega
  have hbelow : δ < 2 ^ (bitlen n + 3) := hhalf.trans (Nat.pow_lt_pow_right (by omega) (by omega))
  have hsum := bitlen_mul_two_pow_add h0 hlt
  rw [rne_eq_roundedQuotient_mul (by omega), hsum, show bitlen n + (p + 3) - p = bitlen n + 3 by omega, hnum,
    roundedQuotient_mul_add hbelow, if_neg]
  rw [show bitlen n + 3 - 1 = bitlen n + 2 by omega]
  omega

/-- A numerator that is rounded goes up from one half on when there is a little more than it. -/
theorem rne_sticky_of_lt_bitlen {n p δ : Nat} (hlen : p < bitlen n) (hpos : 0 < δ) (hlt : δ < 2 ^ (p + 3)) :
    rne (n * 2 ^ (p + 3) + δ) p
      = (if 2 ^ (bitlen n - p - 1) ≤ n % 2 ^ (bitlen n - p) then n / 2 ^ (bitlen n - p) + 1 else n / 2 ^ (bitlen n - p))
        * 2 ^ (bitlen n - p) * 2 ^ (p + 3) := by
  have h0 : n ≠ 0 := by rintro rfl; simp at hlen
  have hsum := bitlen_mul_two_pow_add h0 hlt
  have hexp : bitlen n + (p + 3) - p = bitlen n - p + (p + 3) := by omega
  rw [rne_eq_roundedQuotient_mul (by omega), hsum, hexp, roundedQuotient_sticky (by omega) hpos hlt, pow_add, mul_assoc]

/-! ## The two readings -/

/-- At a tie to even the kept bits stay. -/
theorem rne_of_tieRoundsDown {n p : Nat} (h : tieRoundsDown n p) :
    rne n p = n / 2 ^ (bitlen n - p) * 2 ^ (bitlen n - p) := by
  obtain ⟨hlen, hrem, heven⟩ := h
  rw [rne_eq_roundedQuotient_mul hlen, roundedQuotient, if_neg (by omega)]

theorem rne_lt_of_tieRoundsDown {n p : Nat} (h : tieRoundsDown n p) : rne n p < n := by
  have hdiv := Nat.div_add_mod' n (2 ^ (bitlen n - p))
  have hhalf := Nat.two_pow_pos (bitlen n - p - 1)
  rw [rne_of_tieRoundsDown h]
  obtain ⟨-, hrem, -⟩ := h
  omega

/-- Away from the ties that go down, a little more than the numerator changes nothing. -/
theorem rne_sticky_of_not_tieRoundsDown {n p δ : Nat} (h0 : n ≠ 0) (htie : ¬tieRoundsDown n p) (hpos : 0 < δ)
    (hlt : δ < 2 ^ (p + 3)) (hhalf : δ < 2 ^ (bitlen n + 2)) :
    rne (n * 2 ^ (p + 3) + δ) p = rne n p * 2 ^ (p + 3) := by
  rcases le_or_gt (bitlen n) p with hlen | hlen
  · rw [rne_sticky_of_bitlen_le h0 hlen hlt hhalf, rne_eq_self hlen]
  · rw [rne_sticky_of_lt_bitlen hlen hpos hlt, rne_eq_roundedQuotient_mul hlen, roundedQuotient]
    have hodd : n % 2 ^ (bitlen n - p) = 2 ^ (bitlen n - p - 1) → n / 2 ^ (bitlen n - p) % 2 = 1 := fun hrem =>
      Nat.mod_two_ne_zero.1 fun heven => htie ⟨hlen, hrem, heven⟩
    congr 3
    exact propext (by omega)

theorem fpquot_zero (d p ebits bias : Nat) : fpquot 0 d p ebits bias = 0#_ := by
  simp [fpquot_eq, stickyQuotient, rne]

theorem fpquot_self {d p : Nat} (hd : 0 < d) (hp : 0 < p) (ebits bias : Nat) :
    fpquot d d p ebits bias = fpenc 1 0 p ebits bias := by
  have hfits : FitsBits (1 * 2 ^ (p + 2 + bitlen d + 1)) p := (fitsBits_of_bitlen_le hp).mul_two_pow _
  have htwice : 2 * 2 ^ (p + 2 + bitlen d) = 1 * 2 ^ (p + 2 + bitlen d + 1) := by rw [pow_succ]; ring
  have hscale := fpenc_mul_two_pow 1 (p + 2 + bitlen d + 1) 0 p ebits bias
  rw [fpquot_eq, mul_comm d, stickyQuotient_mul _ hd, htwice, hfits.rne_eq, ← hscale, zero_add]

/-- Inside (0, 1) a quotient by `2^k - 1` is rounded as the numerator with a little more below it. -/
theorem exists_fpquot_eq_rne_sticky {n p k : Nat} (h0 : n ≠ 0) (hn : n < 2 ^ k - 1) (hpk : p + 2 ≤ k) (ebits bias : Nat) :
    ∃ δ, 0 < δ ∧ δ < 2 ^ (p + 3) ∧ δ < 2 ^ (bitlen n + 2)
      ∧ fpquot n (2 ^ k - 1) p ebits bias = fpenc (rne (n * 2 ^ (p + 3) + δ) p) (k + (p + 3)) p ebits bias := by
  obtain ⟨δ, hδ, hpos, hlt, hhalf⟩ := stickyQuotient_pred_two_pow h0 hn hpk
  refine ⟨δ, hpos, hlt, hhalf, ?_⟩
  rw [fpquot_eq, bitlen_two_pow_sub_one, hδ, show p + 2 + k + 1 = k + (p + 3) by omega]

/-- The exact quotient by `2^k - 1` is that of the rounded numerator by `2^k`, unless the numerator lies at a tie that goes down (R79). -/
theorem fpquot_of_not_tieRoundsDown {n p k : Nat} (hp : 0 < p) (hpk : p + 2 ≤ k) (hn : n < 2 ^ k) (htie : ¬tieRoundsDown n p)
    (ebits bias : Nat) : fpquot n (2 ^ k - 1) p ebits bias = fpenc (rne n p) k p ebits bias := by
  rcases eq_or_ne n 0 with rfl | h0
  · rw [fpquot_zero, (rne_eq_zero_iff hp).2 rfl, fpenc_zero]
  rcases (Nat.le_sub_one_of_lt hn).eq_or_lt with htop | hbelow
  · have hround : rne n p = 1 * 2 ^ k := by
      have hhalf := Nat.two_pow_pos (k - p - 1)
      rw [one_mul, rne_eq_two_pow_iff hp (by omega) hn]
      omega
    have hscale := fpenc_mul_two_pow 1 k 0 p ebits bias
    rw [hround, ← htop, fpquot_self (by omega) hp, ← hscale, zero_add]
  · obtain ⟨δ, hpos, hlt, hhalf, hquot⟩ := exists_fpquot_eq_rne_sticky h0 hbelow hpk ebits bias
    rw [hquot, rne_sticky_of_not_tieRoundsDown h0 htie hpos hlt hhalf, fpenc_mul_two_pow]

/-- At a tie that goes down the exact quotient by `2^k - 1` is one unit in the last place more than that of the rounded numerator by
`2^k` (R79). -/
theorem fpquot_of_tieRoundsDown {n p k ebits bias : Nat} (F : IsFormat p ebits bias) (hk : k < bias) (hpk : p + 2 ≤ k)
    (hn : n < 2 ^ k) (htie : tieRoundsDown n p) :
    (fpquot n (2 ^ k - 1) p ebits bias).setWidth 64 = fpWord (rne n p) k p ebits bias + 1#64 := by
  have hp := F.pos
  have hdown := rne_lt_of_tieRoundsDown htie
  have hkept := rne_of_tieRoundsDown htie
  have hbelow : n < 2 ^ k - 1 := by
    by_contra htop
    have hhalf := Nat.two_pow_pos (k - p - 1)
    have hone := (rne_eq_two_pow_iff hp (by omega) hn).2 (by omega)
    omega
  obtain ⟨hlen, hrem, heven⟩ := htie
  have hlenk := (bitlen_le_iff n k).2 hn
  obtain ⟨δ, hpos, hlt, -, hquot⟩ := exists_fpquot_eq_rne_sticky (by omega) hbelow hpk ebits bias
  have hlow := le_div_two_pow hp hlen
  have hhigh := div_two_pow_lt hlen.le
  have hevenp : 2 ^ (p - 1) * 2 = 2 ^ p := Nat.pow_pred_mul hp
  rw [hquot, rne_sticky_of_lt_bitlen hlen hpos hlt, if_pos hrem.ge, fpenc_mul_two_pow, hkept]
  exact fpWord_succ F hk (by omega) hlow (by omega)

/-- Settles O34: both formats are instances of the two lemmas about `fpquot`, at a tie that goes down and elsewhere. -/
theorem roundingReadingsDifferAtTies : Obligations.RoundingReadingsDifferAtTies := by
  intro w
  have hw := w.isLt
  have hn : w.toNat / 2 ^ 32 < 2 ^ 32 := by omega
  rw [scaleF32CC_exactQuotient, scaleF32CC_stepwise, scaleF64CC_exactQuotient, scaleF64CC_stepwise]
  exact ⟨fpquot_of_tieRoundsDown binary32 (by omega) (by omega) hn,
    fun h => congrArg (BitVec.setWidth 64) (fpquot_of_not_tieRoundsDown (by omega) (by omega) hn h 8 127),
    fpquot_of_tieRoundsDown binary64 (by omega) (by omega) hw,
    fun h => congrArg (BitVec.setWidth 64) (fpquot_of_not_tieRoundsDown (by omega) (by omega) hw h 11 1023)⟩

end Sys2Proof.Machine
end

