-- ==== Sys2Proof/Proofs/IterateSums.lean ====
section
/-! PROOF. Family jump: polynomials over GF(2) in the transition. A polynomial is the function of its coefficients; it acts on state words by
adding up the iterates that its coefficients select (spec/43_jump.md R82, R86, R89). -/

namespace Sys2Proof

@[simp] theorem Words.xor_zero (a : Words) : a.xor Words.zero = a := by
  rw [Words.xor_comm, Words.zero_xor]

theorem Words.xor_xor_xor_comm (a b c d : Words) : (a.xor b).xor (c.xor d) = (a.xor c).xor (b.xor d) :=
  Words.ext_words (Machine.xor_xor_xor_comm ..) (Machine.xor_xor_xor_comm ..) (Machine.xor_xor_xor_comm ..)
    (Machine.xor_xor_xor_comm ..)

end Sys2Proof

namespace Sys2Proof.Machine

variable {α β : Type}

/-- Values that can be added, and a step from each value to the next: what the iterates of the step can be summed in. -/
structure XorSystem (α : Type) where
  zero : α
  add : α → α → α
  step : α → α

/-- The sum of the iterates of `a` that the `n` coefficients from `f k` on select: `f k` speaks of `a` itself, `f (k + 1)` of the
value one step later. -/
def XorSystem.sum (S : XorSystem α) (f : ℕ → Bool) : ℕ → ℕ → α → α
  | 0, _, _ => S.zero
  | n + 1, k, a => S.add (bif f k then a else S.zero) (S.sum f n (k + 1) (S.step a))

namespace XorSystem

variable {S : XorSystem α} {R : XorSystem β} {f g : ℕ → Bool}

/-- One system seen in another: additions and steps may be made on either side. -/
structure IsHom (S : XorSystem α) (R : XorSystem β) (φ : α → β) : Prop where
  zero : φ S.zero = R.zero
  add : ∀ a b, φ (S.add a b) = R.add (φ a) (φ b)
  step : ∀ a, φ (S.step a) = R.step (φ a)

theorem IsHom.sum {φ : α → β} (h : S.IsHom R φ) (f : ℕ → Bool) (n k : ℕ) (a : α) :
    φ (S.sum f n k a) = R.sum f n k (φ a) := by
  induction n generalizing k a with
  | zero => exact h.zero
  | succ n ih =>
    have hterm : φ (bif f k then a else S.zero) = bif f k then φ a else R.zero := by
      cases f k
      · exact h.zero
      · rfl
    rw [XorSystem.sum, h.add, hterm, ih, h.step, XorSystem.sum]

/-- A sum reads its own coefficients only, counted from any start. -/
theorem sum_congr {n j k : ℕ} (h : ∀ i < n, f (j + i) = g (k + i)) (a : α) : S.sum f n j a = S.sum g n k a := by
  induction n generalizing j k a with
  | zero => rfl
  | succ n ih =>
    have hrest : ∀ i < n, f (j + 1 + i) = g (k + 1 + i) := fun i hi => by
      simpa only [Nat.add_assoc, Nat.add_comm 1 i] using h (i + 1) (by omega)
    have hfirst : f j = g k := h 0 n.succ_pos
    rw [XorSystem.sum, XorSystem.sum, hfirst, ih hrest]

end XorSystem

/-! ## The state words under the transition -/

/-- The state words, added word by word, under `m` transitions at a time. -/
def wordSystem (m : ℕ) : XorSystem Words := ⟨Words.zero, Words.xor, transition^[m]⟩

theorem transition_iterate_xor (m : ℕ) (v w : Words) :
    transition^[m] (v.xor w) = (transition^[m] v).xor (transition^[m] w) := by
  induction m generalizing v w with
  | zero => rfl
  | succ m ih => rw [Function.iterate_succ_apply, transition_xor, ih]; rfl

/-- Any number of transitions is a homomorphism: it is linear and commutes with transitions. -/
theorem transition_iterate_isHom (j m : ℕ) : (wordSystem m).IsHom (wordSystem m) transition^[j] where
  zero := Function.iterate_fixed transition_zero j
  add := transition_iterate_xor j
  step := (Function.Commute.refl transition).iterate_iterate j m

variable (f g : ℕ → Bool) (m n k : ℕ) (v w : Words)

@[simp] theorem wordSystem_sum_zero : (wordSystem m).sum f 0 k w = Words.zero := rfl

theorem wordSystem_sum_succ : (wordSystem m).sum f (n + 1) k w
    = (bif f k then w else Words.zero).xor ((wordSystem m).sum f n (k + 1) (transition^[m] w)) := rfl

/-- A last coefficient that is 0 may be left out. -/
theorem wordSystem_sum_succ_of_last_false {n k : ℕ} (h : f (k + n) = false) :
    (wordSystem m).sum f (n + 1) k w = (wordSystem m).sum f n k w := by
  induction n generalizing k w with
  | zero => simp_all [wordSystem_sum_succ]
  | succ n ih =>
    have hlast : f (k + 1 + n) = false := by rwa [Nat.add_right_comm]
    rw [wordSystem_sum_succ, ih _ hlast, ← wordSystem_sum_succ]

/-- The polynomial 0 acts as 0. -/
theorem wordSystem_sum_false : (wordSystem m).sum (fun _ => false) n k w = Words.zero := by
  induction n generalizing k w with
  | zero => rfl
  | succ n ih => simp [wordSystem_sum_succ, ih]

/-- Polynomials are added coefficient by coefficient. -/
theorem wordSystem_sum_coeff_xor :
    (wordSystem m).sum (fun i => f i ^^ g i) n k w = ((wordSystem m).sum f n k w).xor ((wordSystem m).sum g n k w) := by
  induction n generalizing k w with
  | zero => simp
  | succ n ih =>
    have hterm : (bif f k ^^ g k then w else Words.zero)
        = (bif f k then w else Words.zero).xor (bif g k then w else Words.zero) := by
      cases f k <;> cases g k <;> simp
    simp only [wordSystem_sum_succ, hterm, ih, Words.xor_xor_xor_comm]

/-- A polynomial in the transition is linear (R89). -/
theorem wordSystem_sum_xor :
    (wordSystem m).sum f n k (v.xor w) = ((wordSystem m).sum f n k v).xor ((wordSystem m).sum f n k w) := by
  induction n generalizing k v w with
  | zero => simp
  | succ n ih =>
    have hterm : (bif f k then v.xor w else Words.zero)
        = (bif f k then v else Words.zero).xor (bif f k then w else Words.zero) := by
      cases f k <;> simp
    simp only [wordSystem_sum_succ, hterm, transition_iterate_xor, ih, Words.xor_xor_xor_comm]

/-- A polynomial in the transition commutes with transitions (R89). -/
theorem wordSystem_sum_iterate (j : ℕ) :
    (wordSystem m).sum f n k (transition^[j] w) = transition^[j] ((wordSystem m).sum f n k w) :=
  ((transition_iterate_isHom j m).sum f n k w).symm

/-- A polynomial in the transition fixes the all-zero state (R89). -/
theorem wordSystem_sum_of_zero : (wordSystem m).sum f n k Words.zero = Words.zero := by
  simpa using wordSystem_sum_xor f m n k Words.zero Words.zero

/-- Squaring over GF(2): the mixed terms cancel, so a polynomial applied twice is the same polynomial in the square of its step. -/
theorem wordSystem_sum_sum :
    (wordSystem m).sum f n k ((wordSystem m).sum f n k w) = (wordSystem (m + m)).sum f n k w := by
  induction n generalizing k w with
  | zero => rfl
  | succ n ih =>
    have hrest : (wordSystem m).sum f n (k + 1) (transition^[m] ((wordSystem m).sum f n (k + 1) (transition^[m] w)))
        = (wordSystem (m + m)).sum f n (k + 1) (transition^[m + m] w) := by
      rw [← wordSystem_sum_iterate, ih, Function.iterate_add_apply]
    rw [wordSystem_sum_succ f (m + m), ← hrest]
    cases hf : f k with
    | false => simp [wordSystem_sum_succ, hf]
    | true =>
      simp only [wordSystem_sum_succ, hf, cond_true, transition_iterate_xor, wordSystem_sum_xor]
      rw [Words.xor_assoc, ← Words.xor_assoc ((wordSystem m).sum f n (k + 1) (transition^[m] w)), Words.xor_self,
        Words.zero_xor]

/-- A polynomial in the transition applied `2^j` times is the same polynomial in `2^j` transitions at a time. -/
theorem wordSystem_sum_iterate_two_pow (j : ℕ) :
    ((wordSystem 1).sum f n k)^[2 ^ j] w = (wordSystem (2 ^ j)).sum f n k w := by
  induction j generalizing w with
  | zero => rfl
  | succ j ih => rw [pow_succ, mul_two, Function.iterate_add_apply, ih, ih, wordSystem_sum_sum]

end Sys2Proof.Machine
end

