-- ==== Sys2Proof/Proofs/Jump.lean ====
section
/-! PROOF. Family jump: the table, and JUMP as a polynomial in the transition (spec/43_jump.md R80 to R85, R88, R89). -/

namespace Sys2Proof.Machine

variable {s : State}

/-! ## The table -/

/-- The jump table read as one number, word 0 in the low 64 bits (R80). -/
def jumpNumber : ℕ := 0x39ABDC4529B1661CA9582618E03FC9AAD5A61266F0C9392C180EC6D33CFD0ABA

/-- Bit `k` of the table is bit `k` of the number (R80, R82). -/
theorem jumpBit_eq_testBit : ∀ k : BitVec 8, jumpBit k = jumpNumber.testBit k.toNat := by
  decide +kernel

theorem jumpBit_ofNat {k : ℕ} (hk : k < 256) : jumpBit (BitVec.ofNat 8 k) = jumpNumber.testBit k := by
  rw [jumpBit_eq_testBit, BitVec.toNat_ofNat, Nat.mod_eq_of_lt hk]

/-- Settles O35: the table is the model's constant, and its bits are counted one by one. -/
theorem jumpTableContents : Obligations.JumpTableContents :=
  ⟨rfl, jumpBit_eq_testBit, by decide +kernel⟩

/-! ## The engine adds up iterates -/

/-- From iteration `k` on the engine adds the iterates that the table selects to what it has accumulated (R81, R83). -/
theorem jumpIterations_acc (n k p : ℕ) (w a : Words) :
    (jumpIterations n ⟨w, a, BitVec.ofNat 8 k, p⟩).acc
      = a.xor ((wordSystem 1).sum (fun i => jumpBit (BitVec.ofNat 8 i)) n k w) := by
  induction n generalizing k p w a with
  | zero => simp [jumpIterations]
  | succ n ih =>
    have hnext : jumpIteration ⟨w, a, BitVec.ofNat 8 k, p⟩
        = ⟨transition w, a.xor (bif jumpBit (BitVec.ofNat 8 k) then w else Words.zero), BitVec.ofNat 8 (k + 1), p + 1⟩ := by
      cases hbit : jumpBit (BitVec.ofNat 8 k) <;> simp [jumpIteration, hbit, BitVec.ofNat_add]
    rw [jumpIterations_succ, hnext, ih, wordSystem_sum_succ, Function.iterate_one, Words.xor_assoc]

/-- What JUMP does to the state words: the polynomial of the table in the transition (R82). -/
def jumpWords (w : Words) : Words := (wordSystem 1).sum jumpNumber.testBit 256 0 w

theorem jumped_words_eq (s : State) : (jumped s).words = jumpWords s.words := by
  rw [jumped_words, jumpIters_eq, jumpIterations_acc 256 0, Words.zero_xor]
  exact XorSystem.sum_congr (fun i hi => by simpa using jumpBit_ofNat hi) s.words

/-- JUMP on a seeded machine, its words named. -/
theorem exec_jump_words (h : s.seeded = true) : ∃ t, exec .jump s = .next t ∧ t.words = jumpWords s.words :=
  ⟨_, exec_jump_seeded h, jumped_words_eq s⟩

/-- The sum that R82 writes, over the selected indices in order, is the polynomial's. -/
theorem foldl_iterates (f : ℕ → Bool) (n k : ℕ) (w a : Words) :
    ((List.range' k n).filter f).foldl (fun a i => a.xor (transition^[i] w)) a
      = a.xor ((wordSystem 1).sum f n k (transition^[k] w)) := by
  induction n generalizing k a with
  | zero => simp
  | succ n ih =>
    rw [List.range'_succ, List.filter_cons, wordSystem_sum_succ, Function.iterate_one, ← Function.iterate_succ_apply' transition]
    cases f k with
    | false => simpa using ih (k + 1) a
    | true => simpa [Words.xor_assoc] using ih (k + 1) (a.xor (transition^[k] w))

/-- Settles O36: the engine's accumulator and the sum of R82 are the same polynomial in the transition. -/
theorem jumpSumsTheIterates : Obligations.JumpSumsTheIterates := by
  intro s hs
  obtain ⟨t, ht, hwords⟩ := exec_jump_words hs
  refine ⟨t, ht, hwords.trans ?_⟩
  rw [List.range_eq_range']
  exact ((foldl_iterates jumpNumber.testBit 256 0 s.words Words.zero).trans (Words.zero_xor _)).symm

/-! ## The rest of the effect -/

/-- Settles O37: unseeded JUMP is refused as every reader is, and seeded it ends with `respond`, which keeps what `jumped` keeps. -/
theorem jumpEffectAndFrame : Obligations.JumpEffectAndFrame :=
  ⟨fun _ => exec_reader_unseeded rfl,
    fun s hs => ⟨_, exec_jump_seeded hs, by simp [hs]⟩⟩

/-- Settles O38: each of the 256 iterations pulses once, and the table's set bits are counted. -/
theorem jumpMakes256Transitions : Obligations.JumpMakes256Transitions :=
  ⟨fun s hs => ⟨_, exec_jump_seeded hs, jumped_pulses s⟩, by decide +kernel⟩

/-- Settles O39: every polynomial in the transition is linear and commutes with it. -/
theorem jumpIsLinearAndCommutes : Obligations.JumpIsLinearAndCommutes :=
  ⟨jumpWords, fun _ => exec_jump_words, wordSystem_sum_xor _ _ _ _, wordSystem_sum_of_zero _ _ _ _,
    fun w => wordSystem_sum_iterate _ _ _ _ w 1⟩

end Sys2Proof.Machine
end

