-- ==== Sys2Proof/Proofs/CharacteristicPolynomial.lean ====
section
/-! PROOF. Family jump: the characteristic polynomial of the transition annihilates every state. A linear map that is zero on the 256 states
with a single 1 bit is zero, and the 256 runs are computed at once, each in a lane of its own (spec/41_next.md R64, spec/43_jump.md R86). -/

/-! ## States with a single 1 bit -/

namespace Sys2Proof

/-- The state that holds `x` in word `i` and zeros in the others. -/
def inWord (i : Fin 4) (x : Word) : Words :=
  match i with
  | 0 => ⟨x, 0#64, 0#64, 0#64⟩
  | 1 => ⟨0#64, x, 0#64, 0#64⟩
  | 2 => ⟨0#64, 0#64, x, 0#64⟩
  | 3 => ⟨0#64, 0#64, 0#64, x⟩

theorem inWord_zero : ∀ i, inWord i 0#64 = Words.zero := by
  decide

theorem inWord_xor (i : Fin 4) (x y : Word) : inWord i (x ^^^ y) = (inWord i x).xor (inWord i y) := by
  match i with
  | 0 | 1 | 2 | 3 => simp [inWord, Words.xor]

theorem Words.eq_xor_inWord (w : Words) :
    w = ((inWord 0 w.s0).xor (inWord 1 w.s1)).xor ((inWord 2 w.s2).xor (inWord 3 w.s3)) := by
  simp [inWord, Words.xor]

/-- What holds of 0, of every single bit and of sums holds of every word: one more bit of it at a time. -/
theorem word_xor_induction {p : Word → Prop} (hzero : p 0#64) (hbit : ∀ b < 64, p (BitVec.twoPow 64 b))
    (hxor : ∀ x y, p x → p y → p (x ^^^ y)) (x : Word) : p x := by
  have hlow : ∀ n ≤ 64, p (x &&& BitVec.ofNat 64 (2 ^ n - 1)) := by
    intro n hn
    induction n with
    | zero => simpa using hzero
    | succ n ih =>
      have hsplit : x &&& BitVec.ofNat 64 (2 ^ (n + 1) - 1)
          = (x &&& BitVec.ofNat 64 (2 ^ n - 1)) ^^^ (x &&& BitVec.twoPow 64 n) := by
        refine BitVec.eq_of_getLsbD_eq fun i hi => ?_
        have hlt : i < n + 1 ↔ i < n ∨ n = i := by omega
        simp only [BitVec.getLsbD_and, BitVec.getLsbD_xor, BitVec.getLsbD_ofNat, BitVec.getLsbD_twoPow,
          Nat.testBit_two_pow_sub_one, hlt, hi, decide_true, Bool.true_and]
        rcases eq_or_ne n i with rfl | hin
        · simp [hi]
        · simp [hin]
      rw [hsplit, BitVec.and_twoPow]
      refine hxor _ _ (ih (by omega)) ?_
      split
      · exact hbit n (by omega)
      · exact hzero
  have hall : x &&& BitVec.ofNat 64 (2 ^ 64 - 1) = x := BitVec.and_allOnes
  exact hall ▸ hlow 64 le_rfl

/-- What holds of the all-zero state, of every single bit and of sums holds of every state. -/
theorem Words.xor_induction {p : Words → Prop} (hzero : p Words.zero)
    (hbit : ∀ i, ∀ b < 64, p (inWord i (BitVec.twoPow 64 b))) (hxor : ∀ v w, p v → p w → p (v.xor w)) (w : Words) : p w := by
  have hword : ∀ i x, p (inWord i x) := fun i =>
    word_xor_induction ((inWord_zero i).symm ▸ hzero) (hbit i) fun x y hx hy => inWord_xor i x y ▸ hxor _ _ hx hy
  rw [Words.eq_xor_inWord w]
  exact hxor _ _ (hxor _ _ (hword 0 _) (hword 1 _)) (hxor _ _ (hword 2 _) (hword 3 _))

end Sys2Proof

namespace Sys2Proof.Machine

/-! ## One state in each of 256 lanes -/

/-- 256 state words side by side: lane `j` holds bits `64j` to `64j + 63`. -/
abbrev Lanes := BitVec (64 * 256)

/-- The word in lane `j`. -/
def lane (x : Lanes) (j : ℕ) : Word := x.extractLsb' (64 * j) 64

/-- The same word in every lane. -/
def everyLane (x : Word) : Lanes := x.replicate 256

/-- A shift to the left in every lane: what crosses into the next lane is masked out. -/
def shlLanes (x : Lanes) (k : ℕ) : Lanes := x <<< k &&& everyLane (BitVec.allOnes 64 <<< k)

/-- A shift to the right in every lane. -/
def shrLanes (x : Lanes) (k : ℕ) : Lanes := x >>> k &&& everyLane (BitVec.allOnes 64 >>> k)

/-- A rotation to the left in every lane (R7). -/
def rotlLanes (x : Lanes) (k : ℕ) : Lanes := shlLanes x k ||| shrLanes x (64 - k)

section Lane

variable (x y : Lanes) {j : ℕ}

theorem lane_getLsbD {i : ℕ} (hi : i < 64) : (lane x j).getLsbD i = x.getLsbD (64 * j + i) := by
  simp [lane, hi]

theorem lane_xor : lane (x ^^^ y) j = lane x j ^^^ lane y j := BitVec.extractLsb'_xor ..

theorem lane_or : lane (x ||| y) j = lane x j ||| lane y j := BitVec.extractLsb'_or ..

theorem everyLane_getLsbD (a : Word) {i : ℕ} (hj : j < 256) (hi : i < 64) :
    (everyLane a).getLsbD (64 * j + i) = a.getLsbD i := by
  have hpos : 64 * j + i < 64 * 256 := by omega
  rw [everyLane, BitVec.getLsbD_replicate, Nat.mul_add_mod, Nat.mod_eq_of_lt hi, decide_eq_true hpos, Bool.true_and]

theorem lane_shlLanes (k : ℕ) (hj : j < 256) : lane (shlLanes x k) j = shl64 (lane x j) k := by
  refine BitVec.eq_of_getLsbD_eq fun i hi => ?_
  rw [lane_getLsbD _ hi, shlLanes, BitVec.getLsbD_and, everyLane_getLsbD _ hj hi, shl64]
  simp only [BitVec.getLsbD_shiftLeft, BitVec.getLsbD_allOnes]
  by_cases hik : i < k
  case pos => simp [hik]
  case neg =>
    have hsub : 64 * j + i - k = 64 * j + (i - k) := by omega
    have hlow : ¬64 * j + i < k := by omega
    have hpos : 64 * j + i < 64 * 256 := by omega
    have hlane : i - k < 64 := by omega
    rw [hsub, ← lane_getLsbD x hlane]
    simp only [hik, hlow, hpos, hlane, hi, decide_true, decide_false, Bool.not_false, Bool.true_and, Bool.and_true]

theorem lane_shrLanes (k : ℕ) (hj : j < 256) : lane (shrLanes x k) j = shr64 (lane x j) k := by
  refine BitVec.eq_of_getLsbD_eq fun i hi => ?_
  rw [lane_getLsbD _ hi, shrLanes, BitVec.getLsbD_and, everyLane_getLsbD _ hj hi, shr64]
  simp only [BitVec.getLsbD_ushiftRight, BitVec.getLsbD_allOnes]
  by_cases hik : k + i < 64
  case pos => rw [Nat.add_left_comm, ← lane_getLsbD x hik, decide_eq_true hik, Bool.and_true]
  case neg => rw [decide_eq_false hik, Bool.and_false, BitVec.getLsbD_of_ge _ _ (Nat.le_of_not_lt hik)]

theorem lane_rotlLanes (k : ℕ) (hj : j < 256) : lane (rotlLanes x k) j = rotl64 (lane x j) k := by
  rw [rotlLanes, lane_or, lane_shlLanes _ _ hj, lane_shrLanes _ _ hj, rotl64, or64]

end Lane

/-- Four words of lanes: 256 states of the generator. -/
structure LaneWords where
  s0 : Lanes
  s1 : Lanes
  s2 : Lanes
  s3 : Lanes
  deriving DecidableEq

/-- The state in lane `j`. -/
def LaneWords.state (w : LaneWords) (j : ℕ) : Words := ⟨lane w.s0 j, lane w.s1 j, lane w.s2 j, lane w.s3 j⟩

/-- The transition in every lane (R58). -/
def LaneWords.transition (w : LaneWords) : LaneWords :=
  let u := w.s3 ^^^ w.s1
  ⟨w.s0 ^^^ u, w.s1 ^^^ (w.s2 ^^^ w.s0), w.s2 ^^^ w.s0 ^^^ shlLanes w.s1 17, rotlLanes u 45⟩

/-- The lanes under the transition. -/
def laneSystem : XorSystem LaneWords where
  zero := ⟨0, 0, 0, 0⟩
  add a b := ⟨a.s0 ^^^ b.s0, a.s1 ^^^ b.s1, a.s2 ^^^ b.s2, a.s3 ^^^ b.s3⟩
  step := LaneWords.transition

/-- Each lane runs on its own, as the state words do. -/
theorem laneSystem_isHom {j : ℕ} (hj : j < 256) : laneSystem.IsHom (wordSystem 1) (LaneWords.state · j) where
  zero := by simp [LaneWords.state, laneSystem, wordSystem, Words.zero, lane]
  add a b := by simp only [LaneWords.state, laneSystem, wordSystem, Words.xor, lane_xor]
  step a := by
    change a.transition.state j = transition (a.state j)
    apply Words.ext_words
    · simp only [LaneWords.state, LaneWords.transition, transition_s0, lane_xor]
    · simp only [LaneWords.state, LaneWords.transition, transition_s1, lane_xor]
    · simp only [LaneWords.state, LaneWords.transition, transition_s2, lane_xor, lane_shlLanes _ _ hj, shl64]
    · simp only [LaneWords.state, LaneWords.transition, transition_s3, lane_xor, lane_rotlLanes _ _ hj]

/-! ## The characteristic polynomial -/

/-- The characteristic polynomial of the transition over GF(2): bit `k` is the coefficient of the `k`-th iterate. What is used of it is
`wordSystem_sum_charPoly`. -/
def charPoly : ℕ := 0x10003C03C3F3ECB1904B4EDCF26259F850280002BCEFD1A5E9D116F2BB0F0F001

/-- The 64 single bits of a word, one in each of the lanes from `64 i` on. -/
def bitLanes (i : ℕ) : Lanes := BitVec.ofNat _ ((2 ^ (65 * 64) - 1) / (2 ^ 65 - 1)) <<< (64 * 64 * i)

/-- The 256 states with a single 1 bit, one in each lane. -/
def bitStates : LaneWords := ⟨bitLanes 0, bitLanes 1, bitLanes 2, bitLanes 3⟩

theorem bitStates_state : ∀ (i : Fin 4) (b : Fin 64), bitStates.state (64 * i + b) = inWord i (BitVec.twoPow 64 b) := by
  decide +kernel

/-- The 256 runs of 256 transitions. -/
theorem laneSystem_sum_charPoly : laneSystem.sum charPoly.testBit 257 0 bitStates = laneSystem.zero := by
  decide +kernel

/-- The characteristic polynomial annihilates every state (Cayley and Hamilton, for the transition). -/
theorem wordSystem_sum_charPoly (w : Words) : (wordSystem 1).sum charPoly.testBit 257 0 w = Words.zero := by
  refine Words.xor_induction (p := fun w => (wordSystem 1).sum charPoly.testBit 257 0 w = Words.zero)
    (wordSystem_sum_of_zero ..) (fun i b hb => ?_) (fun v w hv hw => ?_) w
  · have hlane := laneSystem_isHom (j := 64 * i + b) (by omega)
    rw [← bitStates_state i ⟨b, hb⟩, ← hlane.sum, laneSystem_sum_charPoly]
    exact hlane.zero
  · rw [wordSystem_sum_xor, hv, hw, Words.xor_self]

end Sys2Proof.Machine
end

