-- ==== Sys2Proof/Proofs/JumpDistance.lean ====
section
/-! PROOF. Family jump: JUMP is `2^128` transitions, and so a bijection (spec/43_jump.md R86, R89). Polynomials are computed modulo the
characteristic polynomial, as numbers whose bits 0 to 255 are the coefficients; 32 times the sixteenth power takes `x` to `x^(2^128)`, and what
comes out is the table. -/

namespace Sys2Proof.Machine

/-! ## Polynomials modulo the characteristic polynomial -/

/-- The polynomial with the bits 0 to 255 of `c` as coefficients, applied to state words. -/
def residueAct (c : ℕ) (w : Words) : Words := (wordSystem 1).sum c.testBit 256 0 w

/-- The product by `x`: a coefficient that reaches `x^256` is taken out with the characteristic polynomial. -/
def mulX (c : ℕ) : ℕ := 2 * c ^^^ bif c.testBit 255 then charPoly else 0

/-- Polynomials modulo the characteristic polynomial, under the product by `x^16`. -/
def residueSystem : XorSystem ℕ := ⟨0, (· ^^^ ·), mulX^[16]⟩

/-- The sixteenth power: over GF(2) it has the coefficients of `c`, at the multiples of 16. -/
def powSixteen (c : ℕ) : ℕ := residueSystem.sum c.testBit 256 0 1

section Act

variable (c d n : ℕ) (w : Words)

theorem wordSystem_sum_testBit_zero : (wordSystem 1).sum (Nat.testBit 0) n 0 w = Words.zero :=
  (XorSystem.sum_congr (fun _ _ => Nat.zero_testBit _) w).trans (wordSystem_sum_false 1 n 0 w)

theorem wordSystem_sum_testBit_xor :
    (wordSystem 1).sum (c ^^^ d).testBit n 0 w
      = ((wordSystem 1).sum c.testBit n 0 w).xor ((wordSystem 1).sum d.testBit n 0 w) :=
  (XorSystem.sum_congr (fun _ _ => Nat.testBit_xor ..) w).trans (wordSystem_sum_coeff_xor ..)

/-- Doubling a number moves every coefficient up by one power. -/
theorem wordSystem_sum_two_mul :
    (wordSystem 1).sum (2 * c).testBit (n + 1) 0 w = (wordSystem 1).sum c.testBit n 0 (transition w) := by
  have hlow : (2 * c).testBit 0 = false := by simp
  rw [wordSystem_sum_succ, hlow, cond_false, Words.zero_xor]
  refine XorSystem.sum_congr (fun i _ => ?_) _
  rw [Nat.zero_add, Nat.zero_add, Nat.add_comm, Nat.testBit_succ, Nat.mul_div_cancel_left c two_pos]

theorem mulX_testBit_256 : (mulX c).testBit 256 = false := by
  have hcharPoly : charPoly.testBit 256 = true := by decide
  rw [mulX, Nat.testBit_xor, Nat.testBit_succ, Nat.mul_div_cancel_left c two_pos]
  cases c.testBit 255
  · simp
  · simp [hcharPoly]

/-- The product by `x` acts as one more transition, because the characteristic polynomial acts as 0. -/
theorem residueAct_mulX : residueAct (mulX c) w = transition (residueAct c w) := by
  have hreduce : (wordSystem 1).sum (bif c.testBit 255 then charPoly else 0).testBit 257 0 w = Words.zero := by
    cases c.testBit 255
    · exact wordSystem_sum_testBit_zero 257 w
    · exact wordSystem_sum_charPoly w
  calc residueAct (mulX c) w
      = (wordSystem 1).sum (mulX c).testBit 257 0 w :=
        (wordSystem_sum_succ_of_last_false _ 1 w (mulX_testBit_256 c)).symm
    _ = (wordSystem 1).sum (2 * c).testBit 257 0 w := by
        rw [mulX, wordSystem_sum_testBit_xor, hreduce, Words.xor_zero]
    _ = residueAct c (transition w) := wordSystem_sum_two_mul c 256 w
    _ = transition (residueAct c w) := wordSystem_sum_iterate _ 1 256 0 w 1

/-- The polynomial 1 acts as the identity. -/
theorem residueAct_one : residueAct 1 w = w := by
  have hrest : (wordSystem 1).sum (Nat.testBit 1) 255 1 (transition w) = Words.zero := by
    refine (XorSystem.sum_congr (fun i _ => ?_) _).trans (wordSystem_sum_testBit_zero 255 _)
    rw [Nat.add_comm, Nat.testBit_succ, Nat.zero_add]
  rw [residueAct, wordSystem_sum_succ, Function.iterate_one, hrest, Words.xor_zero]
  rfl

/-- The polynomial `x` acts as the transition. -/
theorem residueAct_two : residueAct 2 w = transition w := by
  have hx : mulX 1 = 2 := by decide
  rw [← hx, residueAct_mulX, residueAct_one]

/-- Acting on fixed state words takes the product by `x^16` to 16 transitions. -/
theorem residueSystem_isHom : residueSystem.IsHom (wordSystem 16) (residueAct · w) where
  zero := wordSystem_sum_testBit_zero 256 w
  add c d := wordSystem_sum_testBit_xor c d 256 w
  step := Function.Semiconj.iterate_right (f := (residueAct · w)) (fun c => residueAct_mulX c w) 16

/-- The sixteenth power acts as the polynomial applied 16 times. -/
theorem residueAct_powSixteen : residueAct (powSixteen c) w = (residueAct c)^[16] w := by
  calc residueAct (powSixteen c) w
      = (wordSystem 16).sum c.testBit 256 0 (residueAct 1 w) := (residueSystem_isHom w).sum c.testBit 256 0 1
    _ = (wordSystem 16).sum c.testBit 256 0 w := by rw [residueAct_one]
    _ = (residueAct c)^[16] w := (wordSystem_sum_iterate_two_pow c.testBit 256 0 w 4).symm

end Act

/-- `x` raised `n` times to the sixteenth power acts as `16^n` transitions. -/
theorem residueAct_powSixteen_iterate (n : ℕ) : residueAct (powSixteen^[n] 2) = transition^[16 ^ n] := by
  induction n with
  | zero => exact funext residueAct_two
  | succ n ih =>
    funext w
    rw [Function.iterate_succ_apply', residueAct_powSixteen, ih, ← Function.iterate_mul, pow_succ]

/-! ## JUMP -/

/-- The table is `x^(16^32)`, that is `x^(2^128)`, modulo the characteristic polynomial (R80, R86). -/
theorem powSixteen_iterate_eq_jumpNumber : powSixteen^[32] 2 = jumpNumber := by
  decide +kernel

/-- JUMP moves the state words on by `2^128` transitions (R86). -/
theorem jumpWords_eq_iterate : jumpWords = transition^[2 ^ 128] := by
  have hpow : 2 ^ 128 = 16 ^ 32 := by norm_num
  rw [hpow, ← residueAct_powSixteen_iterate, powSixteen_iterate_eq_jumpNumber]
  rfl

/-- Settles O40: JUMP applies the polynomial of its table, and that is `x^(2^128)` modulo the characteristic polynomial. -/
theorem jumpIsTwoPow128Transitions : Obligations.JumpIsTwoPow128Transitions := by
  intro s hs
  obtain ⟨t, ht, hwords⟩ := exec_jump_words hs
  exact ⟨t, ht, by rw [hwords, jumpWords_eq_iterate]⟩

/-- Settles O41: an iterate of a bijection is one. -/
theorem jumpIsBijective : Obligations.JumpIsBijective := by
  refine ⟨jumpWords, fun _ => exec_jump_words, ?_⟩
  rw [jumpWords_eq_iterate]
  exact transition_bijective.iterate _

end Sys2Proof.Machine
end

