-- ==== Sys2Proof/Proofs/Exceptions.lean ====
section
/-! PROOF. Family exceptions: what a refused command leaves, which commands are refused, and with which code (spec/60_exceptions.md R92
to R95, R99); the idle block with nothing presented (R105). -/

namespace Sys2Proof.Machine

variable {s : State} {i : Inputs}

/-! ## Raising an error -/

/-- Raising an error changes the response and the permanent mark alone (R99, R101). -/
theorem raise_eq_refusedWith (e : ErrCode) (s : State) : raise e s = refusedWith e s := rfl

@[simp] theorem refusedWith_rsp (e : ErrCode) (s : State) : (refusedWith e s).rsp = some ⟨e, 0#64⟩ := rfl

/-- The reserved opcode is none of the six commands that read the state. -/
theorem reader_ne_reserved {i : Instr} (hi : readsState i = true) : i ≠ .reserved := by
  rintro rfl
  cases hi

/-- A command is refused with ILLEGAL_CMD, or refused with NOT_SEEDED, or performed with a response without error, each exactly under its
own condition (R92, R94, R95). -/
theorem exec_refused_or_performed (i : Instr) (s : State) :
    (i = .reserved ∧ exec i s = .next (refusedWith .illegalCmd s))
    ∨ (readsState i = true ∧ s.seeded = false ∧ exec i s = .next (refusedWith .notSeeded s))
    ∨ (i ≠ .reserved ∧ (readsState i = true → s.seeded = true)
      ∧ ∃ t d, exec i s = .next t ∧ t.rsp = some ⟨.ok, d⟩) := by
  rcases exec_cases i s with ⟨m, rfl, h⟩ | ⟨hi, h⟩ | ⟨hi, hs, h⟩ | ⟨rfl, hs, h⟩ | ⟨hi, -, hs, d, h⟩
  · exact .inr (.inr ⟨nofun, nofun, _, 0#64, h, rfl⟩)
  · exact .inl ⟨hi, h⟩
  · exact .inr (.inl ⟨hi, hs, h⟩)
  · exact .inr (.inr ⟨nofun, fun _ => hs, _, 0#64, h, rfl⟩)
  · exact .inr (.inr ⟨reader_ne_reserved hi, fun _ => hs, _, d, h, rfl⟩)

/-! ## The output ports while a response is presented -/

theorem rspErrO_of_rsp {r : Response} (h : s.rsp = some r) : rspErrO s = errBits r.err := by
  simp [rspErrO, h]

theorem rspDataO_of_rsp {r : Response} (h : s.rsp = some r) : rspDataO s = r.data := by
  simp [rspDataO, h]

/-! ## The statements -/

/-- Settles O42: the three ways a command ends have three codes and exclude each other. -/
theorem errorCodesNameTheirCause : Obligations.ErrorCodesNameTheirCause := by
  intro i s
  rcases exec_refused_or_performed i s with ⟨rfl, h⟩ | ⟨hi, hs, h⟩ | ⟨hi, hseeded, t, d, h, hrsp⟩
  · refine ⟨_, _, h, refusedWith_rsp .., ?_⟩
    simp [rspErrO_of_rsp, rspDataO_of_rsp, errBits, readsState]
  · refine ⟨_, _, h, refusedWith_rsp .., ?_⟩
    simp [rspErrO_of_rsp, rspDataO_of_rsp, errBits, hi, hs, reader_ne_reserved hi]
  · refine ⟨t, _, h, hrsp, ?_⟩
    simpa [rspErrO_of_rsp hrsp, errBits, hi] using hseeded

/-- Settles O43: of the three ways a command ends, two carry an error, and they leave the refused state. -/
theorem errorsChangeNothing : Obligations.ErrorsChangeNothing := by
  intro i s
  rcases exec_refused_or_performed i s with ⟨-, h⟩ | ⟨-, -, h⟩ | ⟨-, -, t, d, h, hrsp⟩
  · exact ⟨_, _, h, rfl, fun _ => rfl⟩
  · exact ⟨_, _, h, rfl, fun _ => rfl⟩
  · exact ⟨t, _, h, hrsp, fun hok => absurd rfl hok⟩

/-- Settles O44: opcode 7 decodes to the reserved command, whose meaning is the refusal. -/
theorem reservedOpcodeIsIllegal : Obligations.ReservedOpcodeIsIllegal := by
  intro x s
  rw [(decode_eq_reserved_iff ⟨7#3, x⟩).2 rfl, ← raise_eq_refusedWith, exec, execReserved]

/-- Settles O45: the guard of the readers refuses them unseeded, no other way a command ends carries NOT_SEEDED, and a reset alone clears
SEEDED. -/
theorem unseededReadersRefused : Obligations.UnseededReadersRefused := by
  refine ⟨fun i s => exec_reader_unseeded, fun i s hcond => ?_, fun s t h hs hrst => (onlyResetClearsSeeded s t h).1 hrst hs⟩
  rcases exec_refused_or_performed i s with ⟨-, h⟩ | ⟨hi, hs, -⟩ | ⟨-, -, t, d, h, hrsp⟩
  · exact ⟨_, _, h, rfl, nofun⟩
  · simp [hi, hs] at hcond
  · exact ⟨t, _, h, hrsp, nofun⟩

/-- Settles O46: on a seeded machine a command other than the reserved one is performed, and a performed command keeps SEEDED and the
permanent mark. -/
theorem seededCommandsNeverFail : Obligations.SeededCommandsNeverFail := by
  intro i s hne hs
  rcases exec_refused_or_performed i s with ⟨hi, -⟩ | ⟨-, hs', -⟩ | ⟨-, -, t, d, h, hrsp⟩
  · exact absurd hi hne
  · cases hs.symm.trans hs'
  · refine ⟨t, d, h, hrsp, (exec_seeded h).2 (.inl hs), ?_⟩
    simpa [hrsp] using exec_errorMark h

/-! ## An idle block -/

theorem transact_idle (hrst : i.rst = .low) (hb : s.busy = false) (hc : i.cmd = none) :
    transact i s = .next { s with waiting := none } := by
  simp [transact, hrst, hb, hc]

/-- Settles O9: no handshake is open, and with nothing presented an idle block only moves to the next sample. -/
theorem idleBlockKeepsState : Obligations.IdleBlockKeepsState := by
  rintro s ready rest ⟨hb, -, hw⟩ hin
  obtain ⟨hrst, hcmd⟩ : (port s).rst = .low ∧ (port s).cmd = none := by
    rcases hin with hin | hin <;> simp [port, hin, hw]
  rw [step_of_kept (handshakeBroken_of_waiting_none hw), transact_idle (s := advance s) hrst hb hcmd, advance, ← hw]

end Sys2Proof.Machine
end

