-- ==== Sys2Proof/Proofs/ResetAndHazards.lean ====
section
/-! PROOF. Family reset and hazards: what a reset abandons and what it leaves waiting, the only refusal of a step, and the all-zero state
(spec/70_reset_and_hazards.md R107, R108, R111, R115, R119). -/

namespace Sys2Proof.Machine

variable {s t : State} {i : Instr}

/-! ## How the all-zero state is entered and left -/

theorem jumpWords_eq_zero_iff (w : Words) : jumpWords w = Words.zero ↔ w = Words.zero := by
  rw [jumpWords_eq_iterate]
  exact (transition_bijective.injective.iterate _).eq_iff' (Function.iterate_fixed transition_zero _)

/-- Only 32 zero bytes pack to the all-zero state: packing is injective (R55). -/
theorem packSeed_eq_zero_iff (m : Seed) : packSeed m = Words.zero ↔ m = Vector.replicate 32 0#8 :=
  packSeed_injective.eq_iff' (by decide)

/-- A command other than SEED makes the words zero exactly when they were: it keeps them, or applies an injective function that fixes
zero (R62, R89, R111). -/
theorem exec_words_zero (h : exec i s = .next t) :
    (∃ m, i = .seed m ∧ t.words = packSeed m) ∨ (t.words = Words.zero ↔ s.words = Words.zero) := by
  rcases exec_next_cases h with ⟨m, hi, rfl⟩ | ⟨-, rfl⟩ | ⟨-, -, rfl⟩ | ⟨-, -, rfl⟩ | ⟨-, -, -, d, rfl⟩
  · exact .inl ⟨m, hi, rfl⟩
  · exact .inr Iff.rfl
  · exact .inr Iff.rfl
  · exact .inr (by rw [respond_words, jumped_words_eq, jumpWords_eq_zero_iff])
  · exact .inr (transition_eq_zero_iff s.words)

/-- A step without reset makes the words zero exactly when they were, unless it accepts a SEED, whose words it loads (R111, R119). -/
theorem step_words_zero (h : step s = .next t) (hrst : (port s).rst = .low) :
    (∃ c m, s.busy = false ∧ (port s).cmd = some c ∧ decode c = .seed m ∧ t.words = packSeed m)
    ∨ (t.words = Words.zero ↔ s.words = Words.zero) := by
  rcases step_next_cases h with ⟨hne, -, -⟩ | ⟨k, c, hne, -, -, -⟩ | ⟨-, -, rfl⟩ | ⟨-, -, rfl⟩ | ⟨c, -, hb, hc, hexec⟩
  · exact absurd hrst hne
  · cases hne.symm.trans hrst
  · exact .inr Iff.rfl
  · exact .inr Iff.rfl
  · rcases exec_words_zero hexec with ⟨m, hm, hwords⟩ | hiff
    · exact .inl ⟨c, m, hb, hc, hm, hwords⟩
    · exact .inr hiff

/-- Settles O53: after a reset SEEDED is 0, an accepted SEED packs its bytes injectively, and any other step makes no words zero. -/
theorem nonzeroStateStaysNonzero : Obligations.NonzeroStateStaysNonzero := by
  intro s t h _ hne hseeded hzero
  have hrst : (port s).rst = .low := by
    by_contra hreset
    obtain ⟨-, -, hcleared⟩ := onlyResetClearsSeeded s t h
    cases hseeded.symm.trans (hcleared hreset)
  rcases step_words_zero h hrst with ⟨c, m, hb, hc, hm, hwords⟩ | hiff
  · rw [hwords, packSeed_eq_zero_iff] at hzero
    exact ⟨hb, c, hc, hzero ▸ hm⟩
  · exact absurd (hiff.1 hzero) hne

/-! ## The answers of the all-zero state -/

theorem scaleF32CO_zero : scaleF32CO 0#64 = 0#64 := by
  decide

theorem scaleF32CC_zero : scaleF32CC scalerRounding 0#64 = 0#64 := by
  decide

theorem scaleF64CO_zero : scaleF64CO 0#64 = 0#64 := by
  decide

theorem scaleF64CC_zero : scaleF64CC scalerRounding 0#64 = 0#64 := by
  decide

/-- On the seeded all-zero state every command that reads the state answers 0: JUMP always does, and the others answer a function of the
output word, which is 0 (R62, R119). -/
theorem exec_reader_rsp_of_zero (hi : readsState i = true) (hs : s.seeded = true) (hw : s.words = Words.zero) :
    ∃ t, exec i s = .next t ∧ t.rsp = some ⟨.ok, 0#64⟩ := by
  have hout : out s.words = 0#64 := out_of_s1_zero (by rw [hw, Words.zero_s1])
  cases i with
  | seed | reserved => cases hi
  | next => exact ⟨_, exec_next_seeded hs, by rw [drawnWith_rsp, hout]⟩
  | f32co => exact ⟨_, exec_f32co_seeded hs, by rw [drawnWith_rsp, hout, scaleF32CO_zero]⟩
  | f32cc => exact ⟨_, exec_f32cc_seeded hs, by rw [drawnWith_rsp, hout, scaleF32CC_zero]⟩
  | f64co => exact ⟨_, exec_f64co_seeded hs, by rw [drawnWith_rsp, hout, scaleF64CO_zero]⟩
  | f64cc => exact ⟨_, exec_f64cc_seeded hs, by rw [drawnWith_rsp, hout, scaleF64CC_zero]⟩
  | jump => exact ⟨_, exec_jump_seeded hs, rfl⟩

/-- Settles O52: a reader is no SEED, so it keeps zero words zero, and so does every step that neither resets nor accepts a SEED. -/
theorem zeroStateIsAbsorbing : Obligations.ZeroStateIsAbsorbing := by
  refine ⟨fun i s hi hs hw => ?_, fun s t h hs hw hrst hseed => ?_⟩
  · obtain ⟨t, h, hrsp⟩ := exec_reader_rsp_of_zero hi hs hw
    rcases exec_words_zero h with ⟨m, rfl, -⟩ | hiff
    · cases hi
    · exact ⟨t, h, hiff.2 hw, hrsp⟩
  · refine ⟨?_, (onlyResetClearsSeeded s t h).1 hrst hs⟩
    rcases step_words_zero h hrst with ⟨c, m, hb, hc, hm, -⟩ | hiff
    · cases hb.symm.trans (hseed c m hc hm)
    · exact hiff.2 hw

/-! ## The only refusal -/

/-- While the handshake is kept every sample has a next state: no command and no reset is refused (R46, R107). -/
theorem step_next_of_kept (hk : handshakeBroken s = false) : ∃ t, step s = .next t := by
  rw [step_of_kept hk]
  rcases transact_cases (port s) (advance s) with ⟨-, -, h⟩ | ⟨k, c, -, -, -, h⟩ | ⟨-, -, -, h⟩ | ⟨-, -, -, h⟩
    | ⟨c, -, -, -, h⟩ | ⟨-, -, -, h⟩
  · exact ⟨_, h⟩
  · exact ⟨_, h⟩
  · exact ⟨_, h⟩
  · exact ⟨_, h⟩
  · obtain ⟨t, -, hexec, -⟩ := exec_responds (decode c) (accept (advance s))
    exact ⟨t, h.trans hexec⟩
  · exact ⟨_, h⟩

theorem step_refused_iff (s : State) (r : Refusal) :
    step s = .refused r ↔ handshakeBroken s = true ∧ r = .handshakeBroken := by
  cases hk : handshakeBroken s with
  | true => simp [step_of_broken hk, eq_comm]
  | false =>
    obtain ⟨t, h⟩ := step_next_of_kept hk
    simp [h]

/-- Settles O10: a step refuses exactly when the handshake is broken, which says what the statement spells out. -/
theorem onlyBrokenHandshakesRefused : Obligations.OnlyBrokenHandshakesRefused := by
  refine fun s => ⟨fun r h => ((step_refused_iff s r).1 h).2, ?_⟩
  rw [step_refused_iff, and_iff_left rfl, handshakeBroken_iff]

/-! ## Reset -/

/-- Settles O49: with a reset in the sample the step is the reset event, on a machine that accepts nothing or on one that abandons the
command it has accepted. -/
theorem resetAbandonsEverything : Obligations.ResetAbandonsEverything := by
  intro s hrst hk
  obtain ⟨t, h⟩ := step_next_of_kept hk
  refine ⟨t, h, ?_⟩
  rcases step_next_cases h with ⟨-, hguard, rfl⟩ | ⟨k, c, hduring, hb, hc, rfl⟩ | ⟨hlow, -⟩ | ⟨hlow, -⟩ | ⟨c, hlow, -⟩
  · refine ⟨rfl, rfl, rfl, rfl, rfl, fun hhigh => ⟨rfl, cmdReadyO_of_rst_high hhigh, rfl⟩, fun k hduring => ?_⟩
    refine ⟨cmdReadyO_of_rst (by simp [hduring]), fun c hb hc => ?_, fun _ => ⟨rfl, rfl⟩⟩
    simp [hduring, hb, hc] at hguard
  · refine ⟨rfl, rfl, rfl, rfl, rfl, fun hhigh => ?_, fun k' hduring' => ?_⟩
    · cases hduring.symm.trans hhigh
    cases hduring.symm.trans hduring'
    refine ⟨cmdReadyO_of_rst (by simp [hduring]), fun c' _ hc' => ?_, fun hnone => ?_⟩
    · cases hc.symm.trans hc'
      exact ⟨rfl, rfl⟩
    · simp [hb, hc] at hnone
  all_goals exact absurd hlow hrst

/-- A reset leaves a command that is presented in it waiting, on an idle and unseeded machine (R107, log entry 12). -/
theorem step_presented_in_reset {c : Command} {ready : Bool} {rest : List Inputs} (hw : s.waiting = none ∨ s.waiting = some c)
    (hin : s.inputs = ⟨.high, some c, ready⟩ :: rest) :
    ∃ t, step s = .next t ∧ t.seeded = false ∧ t.busy = false ∧ t.rsp = none ∧ t.waiting = some c ∧ t.inputs = rest := by
  have hport := port_of_inputs hin
  have hkept : handshakeBroken s = false := handshakeBroken_of_held (by rwa [hport])
  refine ⟨_, step_of_rst_high hkept (by rw [hport]), rfl, rfl, rfl, ?_, ?_⟩
  · rw [resetEvent_waiting, hport]
  · rw [resetEvent_inputs, advance_inputs, hin, List.tail_cons]

/-- Settles O58: the command waits after the reset, so the handshake rule refuses to lose it, and the idle block accepts it when it is
held. -/
theorem commandPresentedInResetIsHeld : Obligations.CommandPresentedInResetIsHeld := by
  intro s c ready i rest hw hin
  obtain ⟨t, hstep, hseeded, hbusy, hrsp, hwaiting, hinputs⟩ := step_presented_in_reset hw hin
  refine ⟨t, hstep, hseeded, hbusy, hrsp, fun hlost => ?_, fun hheld hlow => ?_⟩
  · exact step_of_broken ((handshakeBroken_iff t).2 ⟨c, hwaiting, by rwa [port_of_inputs hinputs]⟩)
  · obtain ⟨rst, cmd, rspReady⟩ := i
    subst hheld hlow
    rw [stepRunsPresentedCommand t c rspReady rest hbusy (.inr hwaiting) hinputs, hrsp]

end Sys2Proof.Machine
end

