-- ==== Sys2Proof/Proofs/ByteImage.lean ====
section
/-! PROOF. Family encoding: the byte image of a command and the table word read through it (log entry 9), and that encoding and decoding
undo each other, but for the lanes that a format C opcode ignores (spec/30_encoding.md R39, R40; spec/20_memory.md R30). -/

namespace Sys2Proof

/-! ## The bytes of a number -/

/-- The first `k` bytes of a number, least significant first: a table word has 33 of them, the seed port 32. -/
def bytesOfNat (k n : Nat) : List Byte := (List.range k).map fun i => BitVec.ofNat 8 (n >>> (8 * i))

theorem imageOfNat_eq_bytesOfNat (n : Nat) : imageOfNat n = bytesOfNat 33 n := rfl

@[simp] theorem length_bytesOfNat (k n : Nat) : (bytesOfNat k n).length = k := by
  simp [bytesOfNat]

theorem bytesOfNat_succ (k n : Nat) : bytesOfNat (k + 1) n = BitVec.ofNat 8 n :: bytesOfNat k (n >>> 8) := by
  simp [bytesOfNat, List.range_succ_eq_map, ← Nat.shiftRight_add, Nat.mul_add, Nat.add_comm]

/-- The number of its own first `k` bytes is the number modulo `256 ^ k`. -/
theorem lanesNat_bytesOfNat (k n : Nat) : lanesNat (bytesOfNat k n) = n % 2 ^ (8 * k) := by
  induction k generalizing n with
  | zero => simp [bytesOfNat, Nat.mod_one]
  | succ k ih =>
    rw [bytesOfNat_succ, lanesNat_cons, ih, BitVec.toNat_ofNat, Nat.shiftRight_eq_div_pow, Nat.mul_succ, Nat.add_comm (8 * k),
      Nat.pow_add, Nat.mod_mul]

/-- The seed port that carries the first 32 bytes of a number carries its low 256 bits (R30). -/
theorem ofNat_lanesNat_bytesOfNat (n : Nat) : BitVec.ofNat 256 (lanesNat (bytesOfNat 32 n)) = BitVec.ofNat 256 n := by
  rw [lanesNat_bytesOfNat]
  exact BitVec.eq_of_toNat_eq (Nat.mod_mod ..)

/-- The lanes of the seed port are its bytes (R30). -/
theorem toList_seedLanes (x : BitVec 256) : (seedLanes x).toList = bytesOfNat 32 x.toNat := by
  refine List.ext_getElem (by simp) fun i hi _ => ?_
  rw [Vector.getElem_toList, seedLanes_getElem x i (by simpa using hi)]
  simp [bytesOfNat, BitVec.extractLsb']

/-- The port value that carries the lanes of a port value is that value (R30). -/
@[simp] theorem seedPort_seedLanes (x : BitVec 256) : seedPort (seedLanes x) = x := by
  rw [seedPort, toList_seedLanes, ofNat_lanesNat_bytesOfNat, BitVec.ofNat_toNat, BitVec.setWidth_eq]

/-! ## The byte image -/

/-- A byte image is read as a command exactly if its opcode byte fits the port and 32 bytes follow it: then it is the command that the
port carries (log entry 9). -/
theorem decodeBytes_cons_eq_ok_iff (op : Byte) (rest : List Byte) (i : Instr) :
    decodeBytes (op :: rest) = .ok i
      ↔ op.toNat < 8 ∧ rest.length = 32 ∧ decode ⟨op.setWidth 3, BitVec.ofNat 256 (lanesNat rest)⟩ = i := by
  rw [decodeBytes, RawCommand.toCommand]
  by_cases hop : op.toNat < 8
  · by_cases hlen : rest.length = 32
    · simp [hop, hlen, BitVec.ofNat_toNat]
    · simp [hop, hlen]
  · simp [hop]

/-- The byte image of a command is read as that command. -/
theorem decodeBytes_encodeBytes (i : Instr) : decodeBytes (encodeBytes i) = .ok i := by
  refine (decodeBytes_cons_eq_ok_iff _ _ i).2 ⟨?_, by simp, ?_⟩
  · have hop := (encode i).op.isLt
    rw [BitVec.toNat_setWidth]
    omega
  · rw [← seedPort, seedPort_seedLanes, BitVec.setWidth_setWidth_of_le _ (by decide), BitVec.setWidth_eq]
    exact decode_encode i

/-- Opcode 0 and the bytes of a seed are read as the SEED with that seed. -/
theorem decodeBytes_seed {bytes : List Byte} {m : Seed} (h : bytes = m.toList) : decodeBytes (0#8 :: bytes) = .ok (.seed m) := by
  subst h
  exact (decodeBytes_cons_eq_ok_iff _ _ _).2 ⟨by decide, by simp, decode_seedPort m⟩

/-! ## The table word -/

theorem decodeTableWord_eq_some_iff_decodeBytes (nbits w : Nat) (i : Instr) :
    decodeTableWord nbits w = some i ↔ decodeBytes (imageOfNat (w % 2 ^ nbits)) = .ok i := by
  rw [decodeTableWord]
  cases decodeBytes (imageOfNat (w % 2 ^ nbits)) <;> simp

/-- A table word is read as a command exactly if its lowest byte is an opcode: then it is the command that its bits put on the port. -/
theorem decodeTableWord_eq_some_iff (nbits w : Nat) (i : Instr) :
    decodeTableWord nbits w = some i ↔ w % 2 ^ nbits % 2 ^ 8 < 8 ∧ decode (commandOfWord nbits w) = i := by
  rw [decodeTableWord_eq_some_iff_decodeBytes, imageOfNat_eq_bytesOfNat, bytesOfNat_succ, decodeBytes_cons_eq_ok_iff,
    length_bytesOfNat, ofNat_lanesNat_bytesOfNat, BitVec.setWidth_ofNat_of_le (by decide), BitVec.toNat_ofNat, commandOfWord,
    eq_self, true_and]

/-! ## Encoding what was decoded -/

/-- The encoder puts the port's own value back with opcode 0, and zeros with the others, which ignore the port (R40). -/
theorem seedPortOf_decode (c : Command) : seedPortOf (decode c) = if c.op = 0#3 then c.seed else 0#256 := by
  obtain ⟨op, x⟩ := c
  rcases opcode_cases op with rfl | rfl | rfl | rfl | rfl | rfl | rfl | rfl
  · exact seedPort_seedLanes x
  all_goals rfl

end Sys2Proof

namespace Sys2Proof.Machine

/-! ## The statements -/

/-- Settles O3: the lanes of the port carry the seed, and the byte image is read as what the port carries. -/
theorem decodeEncodeRoundTrip : Obligations.DecodeEncodeRoundTrip :=
  fun i _ => ⟨decode_encode i, decodeBytes_encodeBytes i⟩

/-- Settles O4: the opcode comes back from the decode table, the seed port lane by lane. -/
theorem encodeDecodeRoundTrip : Obligations.EncodeDecodeRoundTrip := by
  intro c
  rw [encode, opcodeOf_decode, seedPortOf_decode]

/-- Settles O5: the fetch place presents the command of the table word to an idle block on which nothing waits. -/
theorem fetchedTableWordRuns : Obligations.FetchedTableWordRuns := by
  intro s nbits w i h
  obtain ⟨-, hdecode⟩ := (decodeTableWord_eq_some_iff nbits w i).1 h
  have hruns := stepRunsPresentedCommand (s.withFetchWord nbits w) (commandOfWord nbits w) false s.inputs.tail rfl (.inl rfl) rfl
  rwa [hdecode] at hruns

/-- Settles O2: each opcode byte fits the port and 32 bytes follow it; the decode table gives the command, and SEED its bytes. -/
theorem writtenWordsDecode : Obligations.WrittenWordsDecode := by
  refine ⟨?_, ?_, ?_, ?_, ?_, decodeBytes_seed rfl⟩
  all_goals exact (decodeBytes_cons_eq_ok_iff _ _ _).2 ⟨by decide, by simp, rfl⟩

end Sys2Proof.Machine
end
